-- ==== Sys2Proof/Word.lean ====
section
/-! DEFINITION. The two word types of the core (spec/00_scope.md R5, R7, R8): a byte and an unsigned 64-bit value. -/

namespace Sys2Proof

/-- One byte, bit 0 the least significant (R7, R52). -/
abbrev Byte := BitVec 8

/-- An unsigned 64-bit value (VALUE_WIDTH of R5). Nothing in this core is sign-extended (R8). -/
abbrev U64 := BitVec 64

end Sys2Proof
end

