-- ==== Sys2Proof/Config.lean ====
section
/-! DEFINITION. What an implementation fixes (spec/00_scope.md R5, R6), and the free values: constants without a body,
which stand for the values the spec leaves open. No statement may rest on one of them. Each of the six free contents is a
function of the counter `freeIx` alone: two instances whose counters are equal get equal ones, which is the model's choice
where the spec relates nothing (DESIGN CHOICE, log 26). -/

namespace Sys2Proof

/-- Which natural numbers beside 0 name an error value of the implementation's source and sink. Free: it fixes the OPEN
type `IoErr` of R6, whose size no proof can see (log 11). -/
opaque Config.namesIoErr : Nat → Bool

/-- An error value of a byte source or sink: the OPEN parameter `IoErr`, "an opaque type" (R6, R211, U9;
92_eei_decisions.md D7), "carried unchanged". It is the type of the names that the free `Config.namesIoErr` admits, 0 among
them so that there is one: any type of one, of finitely many or of countably many values, and which is open. DESIGN CHOICE
(log 11): error values have numbers for names; the core never inspects them. -/
structure IoErr where
  id : Nat
  named : (id == 0 || Config.namesIoErr id) = true
deriving DecidableEq, Repr

/-- What a byte source has to give next: one more byte of its stream, or a failure (R55, R56). -/
inductive SrcItem where
  | byte (b : Byte)
  | fail (e : IoErr)
deriving DecidableEq, Repr

namespace Config

/-- MAX_EXTRA of R5: the largest supported extra-byte count. -/
def maxExtra : Nat := 8

/-- MAX_LEN of R5: the largest total length T of a varint. -/
def maxLen : Nat := 9

/-- The contents of a BUF that "holds no value" (R27, R212). Free (log 6, 7). -/
opaque freeBuf : Nat → Vector Byte 9

/-- A LEN that "holds no value" (R212), within the 0..9 of R23. Free (log 6). -/
opaque freeLen : Nat → Fin 10

/-- A PAY that "holds no value" (R212), within the "value ≤ 127" of R23. Free (log 6). -/
opaque freePay : Nat → BitVec 7

/-- An EXTRA that "holds no value" (R212), within the 0..8 of R23. Free (log 6). -/
opaque freeExtra : Nat → Fin 9

/-- What a source delivers after a failed read, or after a reset that cut a read short: "unspecified" (R57, R241; U3, U6).
Free (log 8), but related between two instances with equal counters, where U3 relates nothing (DESIGN CHOICE, log 26). -/
opaque freeSource : Nat → List SrcItem

/-- What a sink holds after a failed write, or after a reset that cut a write short: "unspecified" (R61, R241; U3, U6).
Free (log 9), but related between two instances with equal counters, where U3 relates nothing (DESIGN CHOICE, log 26). -/
opaque freeSink : Nat → List Byte

end Config

end Sys2Proof
end

