-- ==== Sys2Proof/Syntax.lean ====
section
/-! DEFINITION. The instructions: one constructor for each row of spec/opcode_table.json. Four are commands of the command
port (30_encoding.md R89, R90); nine are the prefix-byte classes of the wire format (R83), the bytes the decoder's first
read can deliver. Also the command port's own format and the lines of the assembler (R95). -/

namespace Sys2Proof

/-- The four commands, each with the whole 64-bit operand of its command, and the nine prefix classes, each with the
payload bits its byte carries (7 - extra of them, R81, R83). -/
inductive Instr where
  /-- PREFIX, op 0b00 (R120): operand[7:0] is the byte analyzed, operand[63:8] is ignored (R91). -/
  | prefixOp (operand : U64)
  /-- SIZE, op 0b01 (R140). -/
  | size (operand : U64)
  /-- ENCODE, op 0b10 (R160). -/
  | encode (operand : U64)
  /-- DECODE, op 0b11 (R180): the operand is latched and ignored (R26, R91). -/
  | decode (operand : U64)
  /-- `ppppppp1`: T = 1, extra = 0. -/
  | prefixClassT1 (p : BitVec 7)
  /-- `pppppp10`: T = 2, extra = 1. -/
  | prefixClassT2 (p : BitVec 6)
  /-- `ppppp100`: T = 3, extra = 2. -/
  | prefixClassT3 (p : BitVec 5)
  /-- `pppp1000`: T = 4, extra = 3. -/
  | prefixClassT4 (p : BitVec 4)
  /-- `ppp10000`: T = 5, extra = 4. -/
  | prefixClassT5 (p : BitVec 3)
  /-- `pp100000`: T = 6, extra = 5. -/
  | prefixClassT6 (p : BitVec 2)
  /-- `p1000000`: T = 7, extra = 6. -/
  | prefixClassT7 (p : BitVec 1)
  /-- `10000000`: T = 8, extra = 7, no payload bits. -/
  | prefixClassT8
  /-- `00000000`: T = 9, extra = 8, the maximal form (R82). -/
  | prefixClassT9
deriving DecidableEq, Repr

/-- What stands on the command port: the format CMD of R89. -/
structure Command where
  /-- `cmd_op[1:0]`. -/
  op : BitVec 2
  /-- `cmd_operand[63:0]`. -/
  operand : U64
deriving DecidableEq, Repr

/-- Where an encoded instruction arrives: on the command port (R89) or on the byte source (R50, R55). -/
inductive Port where
  | command
  | source
deriving DecidableEq, Repr

/-- One line of an assembler program (R95), its immediate as written: it may be out of range. -/
inductive AsmLine where
  | prefixLine (imm : Nat)
  | sizeLine (imm : Nat)
  | encodeLine (imm : Nat)
  | decodeLine
deriving DecidableEq, Repr

end Sys2Proof
end

