-- ==== Sys2Proof/Machine/State.lean ====
section
/-! DEFINITION. The state of one machine: the eight pieces of state of spec/10_state.md R23, and beside them, as plain
data, the environment the spec says it is connected to (20_memory.md R50, R69). One `State` is one instance of the core
with its own caller, source and sink (R35). -/

namespace Sys2Proof.Machine

/-- The sequencer phases of R24. -/
inductive Seq where
  | idle
  | awaitPrefix
  | awaitExtra
  | awaitWrite
  | done
deriving DecidableEq, Repr

/-- The response record of R29. Inside `ok`, `extra` is absent where R92 gives it no value (U1; log 18). -/
inductive Response where
  | ok (value : U64) (extra : Option (BitVec 4))
  | ioError (err : IoErr)
  | overflowError (count : BitVec 4)
deriving DecidableEq, Repr

/-- What an instance asks of its streams: `ReadExact(n)` (R55) or `WriteAll(s)` (R60). -/
inductive Request where
  | readExact (n : Nat)
  | writeAll (s : List Byte)
deriving DecidableEq, Repr

/-- The two answers of a byte sink (R60). -/
inductive SinkAnswer where
  | ok
  | err (e : IoErr)
deriving DecidableEq, Repr

/-- One move of the environment (R69; log 1). -/
inductive Move where
  /-- The agent that is due in the current phase moves, if it has a move ready. -/
  | go
  /-- The agent that is due takes its time: nothing happens (R58, R69 "block for any time"). -/
  | stall
  /-- The caller offers one more command (R69 "offer a command at any time"); it holds it until it is accepted (R244). -/
  | offer (c : Command)
  /-- Reset is asserted (R240). -/
  | reset
  /-- The answer to a request that a reset abandoned arrives (R241). What it says does not matter: it is ignored. -/
  | lateAnswer (r : Request)
  /-- The environment connects a source that will deliver these items (R242, R245 "fresh input"). -/
  | connectSource (items : List SrcItem)
  /-- The environment connects a sink with these contents, which will give these answers (R242). -/
  | connectSink (contents : List Byte) (answers : List SinkAnswer)
deriving DecidableEq, Repr

/-- The environment of one instance: caller, source, sink and the order in which they move. These are not the core's
state (R23 "belong to the environment"); they stand here so that a step is a function of plain data. -/
structure Env where
  /-- The commands the caller holds, in its order (R64 (b)); the head stands on the command port. -/
  cmds : List Command
  /-- The responses the caller has taken, oldest first. -/
  taken : List Response
  /-- What the source will deliver, in stream order. -/
  source : List SrcItem
  /-- What the sink holds, in stream order. -/
  sink : List Byte
  /-- The answers the sink will give, one for each write. -/
  sinkAnswers : List SinkAnswer
  /-- Every request the instance has issued, oldest first. -/
  requests : List Request
  /-- The requests that a reset abandoned and a collaborator has not answered yet (R241). -/
  abandoned : List Request
  /-- Who moves next; when the list is empty, whoever is due moves at once (log 1). -/
  moves : List Move
deriving DecidableEq, Repr

/-- The state. The first eight fields are "the complete architectural state of one instance" (R23). -/
structure State where
  /-- SEQ: the sequencer phase. -/
  seq : Seq
  /-- OP: the accepted op code. -/
  op : BitVec 2
  /-- OPERAND: the accepted operand. -/
  operand : U64
  /-- BUF[0..8]: the encoder's output bytes, or the decoder's received bytes. -/
  buf : Vector Byte 9
  /-- LEN: the used length of BUF, 0..9. -/
  len : BitVec 4
  /-- PAY: the decoder's payload bits from the prefix, at most 127. -/
  pay : U64
  /-- EXTRA: the decoder's extra-byte count, 0..8. -/
  extra : BitVec 4
  /-- RSP: the response of the last operation, or empty. -/
  rsp : Option Response
  /-- The environment. -/
  env : Env
  /-- The model's own counter of free values drawn. The free values are functions of it alone (DESIGN CHOICE, log 26). -/
  freeIx : Nat
deriving DecidableEq, Repr

/-- Why a step can stop with a fault. -/
inductive Fault where
  /-- Raised by the step in AWAIT_EXTRA when EXTRA is not 1..8, and in AWAIT_WRITE when LEN is not 1..9: no rule of the
  spec leaves the latches so (R23, R63). Safe (log 15): no state a run reaches has it. -/
  | latchOutOfRange
  /-- Raised by the step in DONE when RSP is empty: by R24, RSP holds a response there. Safe (log 15). -/
  | noResponse
deriving DecidableEq, Repr

/-- Why a step can have no meaning. -/
inductive Refusal where
  /-- Raised by exec for an instruction without a meaning. Safe. No arm answers it: every row has its meaning. -/
  | notModelled (mnemonic : String)
  /-- Raised when a collaborator answers a request that is not outstanding: the breach of contract that R63 rules out and
  that "has no move in a model" (R69, U4). Safe for runs whose collaborators keep the contract (log 12). -/
  | unrequestedAnswer
  /-- Raised when a stream is replaced while a request to it is outstanding, which no rule gives a behaviour (log 12).
  Safe. -/
  | streamBusy
  /-- Raised by the reader of the response port at `rsp_status = 0b11` (R93, U5). Safe. -/
  | statusNeverProduced
deriving DecidableEq, Repr

/-- The environment before anything is connected: no command offered, no answer ready (R242; log 22). DESIGN CHOICE (log 28):
a stream that is not connected is one with nothing to give, so a DECODE or an ENCODE without its stream is accepted and
waits; the spec gives only the duty to connect the streams first. -/
def Env.disconnected : Env :=
  { cmds := [], taken := [], source := [], sink := [], sinkAnswers := [], requests := [], abandoned := [], moves := [] }

/-- The machine right after reset: SEQ is IDLE and RSP is empty (R34, R240). The other latches "hold no value" there;
DESIGN CHOICE (log 5): each is 0. -/
def State.reset : State :=
  { seq := .idle, op := 0, operand := 0, buf := Vector.replicate 9 0, len := 0, pay := 0, extra := 0, rsp := none,
    env := Env.disconnected, freeIx := 0 }

end Sys2Proof.Machine
end

