-- ==== Sys2Proof/Machine/Operands.lean ====
section
/-! DEFINITION. The pure functions of the four units: which bits of a command's operand an operation reads
(spec/30_encoding.md R91), the Prefix Analyzer (40_prefix_analyzer.md R121 to R124), the Size Calculator
(41_size_calculator.md R140), the bytes the Encoder builds (42_encoder.md R161 to R164) and the value the Decoder folds
(43_decoder.md R184, R185). -/

namespace Sys2Proof.Machine

/-! ### Operand forms -/

/-- PREFIX reads `operand[7:0]` and ignores the rest (R91). -/
def prefixOperand (operand : U64) : Byte :=
  operand.extractLsb' 0 8

/-! ### The Prefix Analyzer -/

/-- The least position from `i` on, among `fuel` positions, where `b` has a 1; `i + fuel` if there is none. -/
def tzFrom (b : Byte) (i : Nat) : Nat → Nat
  | 0 => i
  | fuel + 1 => if b.getLsbD i then i else tzFrom b (i + 1) fuel

/-- `tz8(b)`, the number of trailing zero bits of a byte, 8 for the zero byte (R10, R121). -/
def tz8 (b : Byte) : Nat :=
  tzFrom b 0 8

/-- What `Analyze` answers: payload and extra count, or the overflow condition with the offending count (R120, R124). -/
inductive Analysis where
  | ok (payload : U64) (extra : BitVec 4)
  | overflow (count : BitVec 4)
deriving DecidableEq, Repr

/-- The payload of a byte with `e` trailing zeros. `e = 8` is a literal special case (R123); otherwise the shift is the
mathematical one on the byte zero-extended to 64 bits (R9, R122). -/
def payloadBits (b : Byte) (e : Nat) : U64 :=
  if e = 8 then 0 else b.setWidth 64 >>> (e + 1)

/-- `Analyze(b)`, with the overflow guard that no byte reaches (R121 to R124). -/
def analyze (b : Byte) : Analysis :=
  let e := tz8 b
  if Config.maxExtra < e then .overflow (BitVec.ofNat 4 e)
  else .ok (payloadBits b e) (BitVec.ofNat 4 e)

/-! ### The Size Calculator -/

/-- The loop of R140 from length `t` on: the first of the next `fuel` lengths that can hold `v`, else the length after. -/
def sizeFrom (v : U64) (t : Nat) : Nat → Nat
  | 0 => t
  | fuel + 1 => if v.toNat < 2 ^ (7 * t) then t else sizeFrom v (t + 1) fuel

/-- `Size(v)`, the minimal total length of a varint that carries `v` (R140): 1 to 8, or 9 when none of those will do. -/
def size (v : U64) : Nat :=
  sizeFrom v 1 8

/-! ### The Encoder's bytes -/

/-- The loop of R164: `n` bytes, each the low byte of the remainder, which is then shifted right by 8. -/
def lowBytes (r : U64) : Nat → List Byte
  | 0 => []
  | n + 1 => r.extractLsb' 0 8 :: lowBytes (r >>> 8) n

/-- The prefix byte of the general form, T ≤ 8 (R163): the value's low `8 - T` bits above the terminator at `T - 1`. -/
def encoderPrefix (v : U64) (t : Nat) : Byte :=
  (((v &&& (BitVec.ofNat 64 (2 ^ (8 - t) - 1))) <<< t) ||| (1#64 <<< (t - 1))).extractLsb' 0 8

/-- The bytes the Encoder puts into BUF (R160 steps 1 to 3): the maximal form (R162) or the general form (R163, R164). -/
def encodeBytes (v : U64) : List Byte :=
  let t := size v
  if t = 9 then 0x00#8 :: lowBytes v 8
  else encoderPrefix v t :: lowBytes (v >>> (8 - t)) (t - 1)

/-! ### The Decoder's fold -/

/-- `pad = min(8, extra + 1)` (R184). -/
def pad (extra : Nat) : Nat :=
  min 8 (extra + 1)

/-- The sum of R185 over the extra bytes from the `i`-th on, each zero-extended and shifted left by `8i - pad`. -/
def foldFrom (pad i : Nat) : List Byte → U64
  | [] => 0
  | b :: bs => (b.setWidth 64 <<< (8 * i - pad)) + foldFrom pad (i + 1) bs

/-- The decoded value: the payload OR the sum over the extra bytes (R185). -/
def fold (payload : U64) (extra : Nat) (bytes : List Byte) : U64 :=
  payload ||| foldFrom (pad extra) 1 bytes

/-- The value a whole varint carries: none if the byte sequence is not of the length its prefix declares (R80, R86). -/
def wireValue : List Byte → Option U64
  | [] => none
  | b :: bs =>
    match analyze b with
    | .overflow _ => none
    | .ok payload extra => if bs.length = extra.toNat then some (fold payload extra.toNat bs) else none

end Sys2Proof.Machine
end

