-- ==== Sys2Proof/Machine/Ops.lean ====
section
/-! DEFINITION. The named operations the meanings are written over: the latches, the two stream primitives
(spec/20_memory.md R55, R60), issuing a request, ending an operation, and `raise` (60_exceptions.md R212). -/

namespace Sys2Proof.Machine

/-- What a step answers. -/
abbrev Result := Host.Outcome State Fault Refusal

/-! ### Latches -/

/-- Command acceptance: `OP <- op; OPERAND <- operand` (R25, R26). -/
def accept (op : BitVec 2) (operand : U64) (s : State) : State :=
  { s with op := op, operand := operand }

/-- A command is accepted in IDLE and nowhere else (R25, R26, R244). Offered in another phase it changes nothing: the caller
holds it. -/
def whenIdle (s : State) (act : State → Result) : Result :=
  if s.seq = .idle then act s else .next s

/-- `BUF[0] <- b`, the first write of AWAIT_PREFIX (R180). -/
def setBuf0 (b : Byte) (s : State) : State :=
  { s with buf := s.buf.set 0 b }

/-- `(PAY, EXTRA) <- …` (R182). -/
def setAnalysis (payload : U64) (extra : BitVec 4) (s : State) : State :=
  { s with pay := payload, extra := extra }

/-- BUF with the given bytes from index 0 on; the bytes after them come from `rest`. -/
def bufOf (bytes : List Byte) (rest : Vector Byte 9) : Vector Byte 9 :=
  Vector.ofFn fun i => bytes.getD i.val rest[i]

/-- `BUF[0..n-1] <- bytes; LEN <- n`. From then on `BUF[LEN..8]` "hold no value" (R27): free values (log 7, 26). -/
def fillBuf (bytes : List Byte) (s : State) : State :=
  { s with
    buf := bufOf bytes (Config.freeBuf s.freeIx)
    len := BitVec.ofNat 4 bytes.length
    freeIx := s.freeIx + 1 }

/-- The meaningful bytes of BUF, `BUF[0..LEN-1]` (R27). -/
def State.bufBytes (s : State) : List Byte :=
  s.buf.toList.take s.len.toNat

/-! ### Ending an operation -/

/-- The end of an operation: `RSP <- r`, and `SEQ` is DONE (R25, R31). DESIGN CHOICE (log 27): after a success BUF, LEN, PAY
and EXTRA keep their contents from here on. -/
def respond (r : Response) (s : State) : State :=
  { s with rsp := some r, seq := .done }

/-- The two error kinds (R210). -/
inductive CoreError where
  | io (e : IoErr)
  | overflow (count : BitVec 4)
deriving DecidableEq, Repr

/-- The response of an error: its tag and its one payload field (R212). -/
def CoreError.response : CoreError → Response
  | .io e => .ioError e
  | .overflow count => .overflowError count

/-- BUF, LEN, PAY and EXTRA "are left holding no value for any later reader" (R212): free values (log 6, 26). -/
def dropLatches (s : State) : State :=
  { s with
    buf := Config.freeBuf s.freeIx
    len := BitVec.ofNat 4 (Config.freeLen s.freeIx).val
    pay := (Config.freePay s.freeIx).setWidth 64
    extra := BitVec.ofNat 4 (Config.freeExtra s.freeIx).val
    freeIx := s.freeIx + 1 }

/-- `raise IoError(e)` and `raise OverflowError(n)`, the whole effect of an error (R212, R217): RSP, SEQ, and the latches
that hold no value any more. No pc, cause or mode is saved or changed, for there is none. -/
def raise (err : CoreError) (s : State) : State :=
  respond err.response (dropLatches s)

/-! ### Requests -/

/-- An instance issues a request and waits for its answer in phase `q` (R63). -/
def issue (r : Request) (q : Seq) (s : State) : State :=
  { s with seq := q, env := { s.env with requests := s.env.requests ++ [r] } }

/-- The request outstanding in a phase, if there is one: at most one (R24, R63). -/
def State.outstanding (s : State) : Option Request :=
  match s.seq with
  | .idle => none
  | .awaitPrefix => some (.readExact 1)
  | .awaitExtra => some (.readExact s.extra.toNat)
  | .awaitWrite => some (.writeAll s.bufBytes)
  | .done => none

/-- What a source does with a request. -/
inductive ReadAnswer where
  /-- Not enough has arrived: no answer yet (R58). -/
  | blocked
  /-- Exactly the bytes asked for, and what the source holds after them (R55, R57). -/
  | ok (bytes : List Byte) (rest : List SrcItem)
  /-- The source's own error (R55). -/
  | err (e : IoErr)
deriving DecidableEq, Repr

/-- `ReadExact(n)`: the next n bytes of the stream, or the failure that stands among them (R55, R66). A short read cannot
be written down. -/
def readExact : Nat → List SrcItem → ReadAnswer
  | 0, items => .ok [] items
  | _ + 1, [] => .blocked
  | _ + 1, .fail e :: _ => .err e
  | n + 1, .byte b :: items =>
    match readExact n items with
    | .blocked => .blocked
    | .ok bytes rest => .ok (b :: bytes) rest
    | .err e => .err e

/-- The source holds what is left after a read (R57, R67). -/
def setSource (items : List SrcItem) (s : State) : State :=
  { s with env := { s.env with source := items } }

/-- The sink's contents and the answers it has still to give. -/
def setSink (contents : List Byte) (answers : List SinkAnswer) (s : State) : State :=
  { s with env := { s.env with sink := contents, sinkAnswers := answers } }

/-- A read that failed: the source's position and contents are unspecified (R57, U3; log 8), and the operation ends with
the source's error, verbatim (R189, R211). DESIGN CHOICE (log 26): the free contents are a function of `freeIx` alone, so the
failed sources of two instances with equal counters hold the same; U3 relates them in no way. -/
def failRead (e : IoErr) (s : State) : State :=
  raise (.io e) (setSource (Config.freeSource s.freeIx) s)

/-- A write that failed: the sink's contents are unspecified (R61, U3; log 9), and the operation ends with the sink's error,
verbatim and without a retry (R167, R211). DESIGN CHOICE (log 26): the free contents are a function of `freeIx` alone. DESIGN
CHOICE (log 32): the answers the sink has still to give stay as they are listed; U3 leaves them open. -/
def failWrite (e : IoErr) (answers : List SinkAnswer) (s : State) : State :=
  raise (.io e) (setSink (Config.freeSink s.freeIx) answers s)

end Sys2Proof.Machine
end

