-- ==== Sys2Proof/Machine/Analyzer.lean ====
section
/-! DEFINITION. The Prefix Analyzer's operation PREFIX (spec/40_prefix_analyzer.md R120). -/

namespace Sys2Proof.Machine

/-- What PREFIX does with the latched operand, in the accepting step (R120, R124). -/
def runPrefix (s : State) : State :=
  match analyze (prefixOperand s.operand) with
  | .overflow count => raise (.overflow count) s
  | .ok payload extra => respond (.ok payload (some extra)) s

/-- PREFIX (R120): IDLE to DONE in one step. No stream is touched. -/
def execPrefix (operand : U64) (s : State) : Result :=
  whenIdle s fun s => .next (runPrefix (accept 0b00 operand s))

end Sys2Proof.Machine
end

