-- ==== Sys2Proof/WellFormed.lean ====
section
/-! DEFINITION. What is well formed: assembler lines by their immediates (spec/30_encoding.md R95), words by the width of
the port they stand on (R89, R52). An `Instr` is well formed by its types: R94 makes every (op, operand) pair a command
and R86 every byte a prefix byte. -/

namespace Sys2Proof

/-- "An immediate out of range is an assembly error and spells no command" (R95). -/
def AsmLine.wellFormed : AsmLine → Bool
  | .prefixLine imm => decide (imm < 2 ^ 8)
  | .sizeLine imm => decide (imm < 2 ^ 64)
  | .encodeLine imm => decide (imm < 2 ^ 64)
  | .decodeLine => true

/-- How many bits a word on a port has: 2 + 64 for a command (R89), 8 for a byte of the source (R52). -/
def Port.bits : Port → Nat
  | .command => 66
  | .source => 8

/-- A number that a port can carry as one word. -/
def Port.wordWellFormed (port : Port) (w : Nat) : Bool :=
  decide (w < 2 ^ port.bits)

end Sys2Proof
end

