-- ==== Sys2Proof/Decode.lean ====
section
/-! DEFINITION. Decoding and encoding (spec/30_encoding.md R83 to R85, R89 to R91; spec/opcode_table.json). A command is
numbered with `cmd_op` in bits 1:0, as the table numbers it, and `cmd_operand` in the 64 bits above (DESIGN CHOICE, log 2);
a prefix byte is numbered as itself. -/

namespace Sys2Proof

/-- Why a number is no instruction word, by name. -/
inductive DecodeError where
  /-- The number has more than the 66 bits of a command (R89). -/
  | tooWideForCommand
  /-- The number has more than the 8 bits of a byte of the source (R52). -/
  | tooWideForByte
deriving DecidableEq, Repr

/-! ### Commands -/

/-- The command that a 66-bit number stands for. -/
def Command.ofWord (w : Nat) : Command :=
  { op := BitVec.ofNat 2 w, operand := BitVec.ofNat 64 (w / 4) }

/-- The 66-bit number of a command. -/
def Command.toWord (c : Command) : Nat :=
  c.operand.toNat * 4 + c.op.toNat

/-- The op codes of R90. All four are assigned, so this is total. -/
def decodeCommand (c : Command) : Instr :=
  if c.op = 0b00#2 then .prefixOp c.operand
  else if c.op = 0b01#2 then .size c.operand
  else if c.op = 0b10#2 then .encode c.operand
  else .decode c.operand

/-! ### Prefix bytes -/

/-- Whether a byte belongs to a class: `(b & mask) == match` (R83). -/
def inClass (mask bits b : Byte) : Bool :=
  b &&& mask == bits

/-- The nine classes of R83, in the table's order. They cover all 256 bytes, so the last test is not written out. -/
def decodePrefixByte (b : Byte) : Instr :=
  if inClass 0x01 0x01 b then .prefixClassT1 (b.extractLsb' 1 7)
  else if inClass 0x03 0x02 b then .prefixClassT2 (b.extractLsb' 2 6)
  else if inClass 0x07 0x04 b then .prefixClassT3 (b.extractLsb' 3 5)
  else if inClass 0x0F 0x08 b then .prefixClassT4 (b.extractLsb' 4 4)
  else if inClass 0x1F 0x10 b then .prefixClassT5 (b.extractLsb' 5 3)
  else if inClass 0x3F 0x20 b then .prefixClassT6 (b.extractLsb' 6 2)
  else if inClass 0x7F 0x40 b then .prefixClassT7 (b.extractLsb' 7 1)
  else if inClass 0xFF 0x80 b then .prefixClassT8
  else .prefixClassT9

/-- Decoding of any number on either port; a number too wide for the port is rejected by name. -/
def decode (port : Port) (w : Nat) : Except DecodeError Instr :=
  match port with
  | .command =>
    if w < 2 ^ 66 then .ok (decodeCommand (Command.ofWord w)) else .error .tooWideForCommand
  | .source =>
    if w < 2 ^ 8 then .ok (decodePrefixByte (BitVec.ofNat 8 w)) else .error .tooWideForByte

/-! ### The encoder -/

/-- A prefix byte from its fields (R81): payload above the terminator, the terminator at position `extra`, zeros below. -/
def prefixByte (extra : Nat) {n : Nat} (p : BitVec n) : Byte :=
  (p.setWidth 8 <<< (extra + 1)) ||| (1#8 <<< extra)

/-- The port and the word of every instruction. -/
def encode : Instr → Port × Nat
  | .prefixOp operand => (.command, Command.toWord ⟨0b00#2, operand⟩)
  | .size operand => (.command, Command.toWord ⟨0b01#2, operand⟩)
  | .encode operand => (.command, Command.toWord ⟨0b10#2, operand⟩)
  | .decode operand => (.command, Command.toWord ⟨0b11#2, operand⟩)
  | .prefixClassT1 p => (.source, (prefixByte 0 p).toNat)
  | .prefixClassT2 p => (.source, (prefixByte 1 p).toNat)
  | .prefixClassT3 p => (.source, (prefixByte 2 p).toNat)
  | .prefixClassT4 p => (.source, (prefixByte 3 p).toNat)
  | .prefixClassT5 p => (.source, (prefixByte 4 p).toNat)
  | .prefixClassT6 p => (.source, (prefixByte 5 p).toNat)
  | .prefixClassT7 p => (.source, (prefixByte 6 p).toNat)
  | .prefixClassT8 => (.source, (prefixByte 7 (0#0)).toNat)
  | .prefixClassT9 => (.source, 0)

/-! ### The opcode table's numbers -/

/-- Which port a number of spec/opcode_table.json stands on. The table numbers two spaces from 0: `cmd_op` and the prefix
byte. DESIGN CHOICE (log 3): a number below 4 is an op code with operand 0, any other number of at most 8 bits a prefix
byte, and a longer one a command. -/
def tablePort (nbits w : Nat) : Port :=
  if 8 < nbits then .command else if w < 4 then .command else .source

/-- The instruction that the decoder reads from a number of the opcode table. -/
def decodeTableWord (nbits w : Nat) : Option Instr :=
  match decode (tablePort nbits w) w with
  | .ok i => some i
  | .error _ => none

end Sys2Proof
end

