-- ==== Sys2Proof/Machine/Decoder.lean ====
section
/-! DEFINITION. The Decoder's operation DECODE (spec/43_decoder.md R180): the accepting step, the meaning of a prefix byte of
each class when the source delivers it, and the answer to the extra-bytes read. -/

namespace Sys2Proof.Machine

/-- What DECODE does in the accepting step: one `ReadExact(1)` (R181). -/
def runDecode (s : State) : State :=
  issue (.readExact 1) .awaitPrefix s

/-- DECODE (R180), the accepting step: IDLE to AWAIT_PREFIX. The operand is latched (R26) and ignored (R91). -/
def execDecode (operand : U64) (s : State) : Result :=
  whenIdle s fun s => .next (runDecode (accept 0b11 operand s))

/-- What follows the analysis of the prefix byte `b` (R180, R182, R183): the guard; the end of a one-byte varint; or the one
read of EXTRA bytes. -/
def afterAnalysis (b : Byte) (a : Analysis) (s : State) : State :=
  match a with
  | .overflow count => raise (.overflow count) s
  | .ok payload extra =>
    let t := setAnalysis payload extra s
    if extra = 0 then respond (.ok payload none) (fillBuf [b] t)
    else issue (.readExact extra.toNat) .awaitExtra t

/-- The source answers `Ok({b})` to the prefix read (R25 AWAIT_PREFIX, R182). An answer in another phase is one that no
request asked for (R63): it has no move (U4; log 12). -/
def takePrefix (b : Byte) (s : State) : Result :=
  if s.seq = .awaitPrefix then .next (afterAnalysis b (analyze b) (setBuf0 b s))
  else .refused .unrequestedAnswer

/-- `ppppppp1` (R83): T = 1. -/
def execPrefixClassT1 (p : BitVec 7) (s : State) : Result := takePrefix (prefixByte 0 p) s

/-- `pppppp10` (R83): T = 2. -/
def execPrefixClassT2 (p : BitVec 6) (s : State) : Result := takePrefix (prefixByte 1 p) s

/-- `ppppp100` (R83): T = 3. -/
def execPrefixClassT3 (p : BitVec 5) (s : State) : Result := takePrefix (prefixByte 2 p) s

/-- `pppp1000` (R83): T = 4. -/
def execPrefixClassT4 (p : BitVec 4) (s : State) : Result := takePrefix (prefixByte 3 p) s

/-- `ppp10000` (R83): T = 5. -/
def execPrefixClassT5 (p : BitVec 3) (s : State) : Result := takePrefix (prefixByte 4 p) s

/-- `pp100000` (R83): T = 6. -/
def execPrefixClassT6 (p : BitVec 2) (s : State) : Result := takePrefix (prefixByte 5 p) s

/-- `p1000000` (R83): T = 7. -/
def execPrefixClassT7 (p : BitVec 1) (s : State) : Result := takePrefix (prefixByte 6 p) s

/-- `10000000` (R83): T = 8. -/
def execPrefixClassT8 (s : State) : Result := takePrefix (prefixByte 7 (0#0)) s

/-- `00000000` (R82, R83): T = 9, the maximal form. -/
def execPrefixClassT9 (s : State) : Result := takePrefix 0x00#8 s

/-- The source answers `Ok(bytes)` to the extra-bytes read (R25 AWAIT_EXTRA, R185): BUF and LEN take the bytes, and the
response is the fold over PAY, EXTRA and BUF. -/
def takeExtra (bytes : List Byte) (s : State) : State :=
  let t := fillBuf (s.buf[0] :: bytes) s
  respond (.ok (fold t.pay t.extra.toNat (t.bufBytes.drop 1)) none) t

/-- AWAIT_EXTRA (R25): the read of EXTRA bytes, 1 to 8 of them (R55, R183). Without an answer the instance stays (R58),
and the source keeps its bytes (DESIGN CHOICE, log 33). -/
def awaitExtra (s : State) : Result :=
  if 1 ≤ s.extra.toNat ∧ s.extra.toNat ≤ Config.maxExtra then
    match readExact s.extra.toNat s.env.source with
    | .blocked => .next s
    | .ok bytes rest => .next (takeExtra bytes (setSource rest s))
    | .err e => .next (failRead e s)
  else .fault .latchOutOfRange

end Sys2Proof.Machine
end

