-- ==== Sys2Proof/Machine/Encoder.lean ====
section
/-! DEFINITION. The Encoder's operation ENCODE (spec/42_encoder.md R160) and its second step, the sink's answer. -/

namespace Sys2Proof.Machine

/-- Steps 1 to 3 of R160 and the one request of step 4 (R62, R165). -/
def runEncode (s : State) : State :=
  let t := fillBuf (encodeBytes s.operand) s
  issue (.writeAll t.bufBytes) .awaitWrite t

/-- ENCODE (R160), the accepting step: IDLE to AWAIT_WRITE with BUF and LEN filled and one `WriteAll` issued. -/
def execEncode (operand : U64) (s : State) : Result :=
  whenIdle s fun s => .next (runEncode (accept 0b10 operand s))

/-- AWAIT_WRITE (R25): on Ok all of BUF[0..LEN-1] has been appended and the response is LEN (R60, R165); on Err the error is
raised (R167); without an answer the instance stays (R58, R248). DESIGN CHOICE (log 33): until the answer the sink holds what it
held before the request; the spec says what it holds after Ok and after Err only. -/
def awaitWrite (s : State) : Result :=
  if 1 ≤ s.len.toNat ∧ s.len.toNat ≤ Config.maxLen then
    match s.env.sinkAnswers with
    | [] => .next s
    | .ok :: answers =>
      .next (respond (.ok (s.len.setWidth 64) none) (setSink (s.env.sink ++ s.bufBytes) answers s))
    | .err e :: answers => .next (failWrite e answers s)
  else .fault .latchOutOfRange

end Sys2Proof.Machine
end

