-- ==== Sys2Proof/Machine/Sizer.lean ====
section
/-! DEFINITION. The Size Calculator's operation SIZE (spec/41_size_calculator.md R140). -/

namespace Sys2Proof.Machine

/-- What SIZE does with the latched operand, in the accepting step (R140). It has no error. -/
def runSize (s : State) : State :=
  respond (.ok (BitVec.ofNat 64 (size s.operand)) none) s

/-- SIZE (R140): IDLE to DONE in one step. No stream is touched. -/
def execSize (operand : U64) (s : State) : Result :=
  whenIdle s fun s => .next (runSize (accept 0b01 operand s))

end Sys2Proof.Machine
end

