-- ==== Sys2Proof/Machine/Dispatch.lean ====
section
/-! DEFINITION. exec: one arm for each constructor of Instr. -/

namespace Sys2Proof.Machine

def exec (i : Instr) (s : State) : Host.Outcome State Fault Refusal :=
  match i with
  -- commands of the command port (spec/30_encoding.md R90)
  | .prefixOp operand => Sys2Proof.Machine.execPrefix operand s
  | .size operand => Sys2Proof.Machine.execSize operand s
  | .encode operand => Sys2Proof.Machine.execEncode operand s
  | .decode operand => Sys2Proof.Machine.execDecode operand s
  -- prefix bytes delivered by the source (spec/30_encoding.md R83)
  | .prefixClassT1 p => Sys2Proof.Machine.execPrefixClassT1 p s
  | .prefixClassT2 p => Sys2Proof.Machine.execPrefixClassT2 p s
  | .prefixClassT3 p => Sys2Proof.Machine.execPrefixClassT3 p s
  | .prefixClassT4 p => Sys2Proof.Machine.execPrefixClassT4 p s
  | .prefixClassT5 p => Sys2Proof.Machine.execPrefixClassT5 p s
  | .prefixClassT6 p => Sys2Proof.Machine.execPrefixClassT6 p s
  | .prefixClassT7 p => Sys2Proof.Machine.execPrefixClassT7 p s
  | .prefixClassT8 => Sys2Proof.Machine.execPrefixClassT8 s
  | .prefixClassT9 => Sys2Proof.Machine.execPrefixClassT9 s

end Sys2Proof.Machine
end

