-- ==== Sys2Proof/Machine/Sequencer.lean ====
section
/-! DEFINITION. The sequencer (spec/10_state.md R25): which event a step is, the moves of the environment
(20_memory.md R69), reset (70_reset_and_hazards.md R240, R241), and where the next instruction comes from: the command port
in IDLE, the byte source in AWAIT_PREFIX. -/

namespace Sys2Proof.Machine

/-! ### Moves of the environment -/

/-- The move that is next, and the state with it taken off the list. An empty list lets whoever is due move (log 1). -/
def nextMove (s : State) : Move × State :=
  match s.env.moves with
  | [] => (.go, s)
  | m :: rest => (m, { s with env := { s.env with moves := rest } })

/-- Whether a request to the source is outstanding (R63). -/
def State.reading (s : State) : Bool :=
  s.seq == .awaitPrefix || s.seq == .awaitExtra

/-- Whether a request to the sink is outstanding (R63). -/
def State.writing (s : State) : Bool :=
  s.seq == .awaitWrite

/-- What a reset does to the environment (R241): the outstanding request is abandoned, and the stream it went to is in an
unspecified state (U6; log 8, 9, 26). DESIGN CHOICE (log 30): the sink's listed answers are kept whole, so the next one goes to
the next `WriteAll` and none belongs to the abandoned write. DESIGN CHOICE (log 31): the abandoned request has its whole effect
on its stream here, at the reset, and none later. -/
def abandonRequest (s : State) : Env :=
  { s.env with
    abandoned := s.env.abandoned ++ s.outstanding.toList
    source := if s.reading then Config.freeSource s.freeIx else s.env.source
    sink := if s.writing then Config.freeSink s.freeIx else s.env.sink }

/-- Reset, in any phase (R240): SEQ is IDLE, RSP is empty, and every other latch is as after reset (R34; log 5). The
operation in flight gives no response (R241). -/
def applyReset (s : State) : State :=
  { State.reset with env := abandonRequest s, freeIx := s.freeIx + 1 }

/-- The caller holds one more command (R69, R244). -/
def offer (c : Command) (s : State) : State :=
  { s with env := { s.env with cmds := s.env.cmds ++ [c] } }

/-- An answer to an abandoned request "is ignored" (R241); an answer to no request has no move (R63, U4; log 12, 19). DESIGN
CHOICE (log 31): it changes no stream, since what the abandoned request did to its stream it did at the reset; U6 leaves the
time open. -/
def lateAnswer (r : Request) (s : State) : Result :=
  if r ∈ s.env.abandoned then .next { s with env := { s.env with abandoned := s.env.abandoned.erase r } }
  else .refused .unrequestedAnswer

/-- A source is connected (R242, R245), not while a read is outstanding (log 12): a DECODE that was accepted with no source
connected waits until a reset (DESIGN CHOICE, log 28). -/
def connectSource (items : List SrcItem) (s : State) : Result :=
  if s.reading then .refused .streamBusy else .next (setSource items s)

/-- A sink is connected (R242), not while a write is outstanding (log 12): an ENCODE that was accepted with no sink connected
waits until a reset (DESIGN CHOICE, log 28). -/
def connectSink (contents : List Byte) (answers : List SinkAnswer) (s : State) : Result :=
  if s.writing then .refused .streamBusy else .next (setSink contents answers s)

/-- The caller takes RSP: DONE to IDLE, with no other action (R25; log 10). DESIGN CHOICE (log 27): BUF, LEN, PAY and EXTRA
keep their contents through DONE and IDLE until they are next written; 91_not_in_source.md N19 says that a reader must not
assume so of BUF. -/
def takeResponse (s : State) : Result :=
  match s.rsp with
  | some r => .next { s with seq := .idle, env := { s.env with taken := s.env.taken ++ [r] } }
  | none => .fault .noResponse

/-! ### Fetching -/

/-- What a step turns out to be: an instruction to run, or an event that ends in an outcome by itself. -/
inductive Event where
  | run (i : Instr) (s : State)
  | outcome (r : Result)

/-- IDLE: the command on the port, if there is one, is taken off the caller's list and decoded (R25, R90). -/
def fetchCommand (s : State) : Event :=
  match s.env.cmds with
  | [] => .outcome (.next s)
  | c :: rest => .run (decodeCommand c) { s with env := { s.env with cmds := rest } }

/-- AWAIT_PREFIX: the source's answer to `ReadExact(1)` (R25, R181): a prefix byte, which is decoded by its class (R83); an
error (R189); or nothing yet (R58), and the source is as it was until it answers (DESIGN CHOICE, log 33). -/
def fetchPrefixByte (s : State) : Event :=
  match readExact 1 s.env.source with
  | .blocked => .outcome (.next s)
  | .ok bytes rest => .run (decodePrefixByte (bytes.headD 0)) (setSource rest s)
  | .err e => .outcome (.next (failRead e s))

/-- The event that is due in the current phase (R25). -/
def dueEvent (s : State) : Event :=
  match s.seq with
  | .idle => fetchCommand s
  | .awaitPrefix => fetchPrefixByte s
  | .awaitExtra => .outcome (Sys2Proof.Machine.awaitExtra s)
  | .awaitWrite => .outcome (Sys2Proof.Machine.awaitWrite s)
  | .done => .outcome (takeResponse s)

/-- The event of a move. -/
def moveEvent (m : Move) (s : State) : Event :=
  match m with
  | .go => dueEvent s
  | .stall => .outcome (.next s)
  | .offer c => .outcome (.next (offer c s))
  | .reset => .outcome (.next (applyReset s))
  | .lateAnswer r => .outcome (Sys2Proof.Machine.lateAnswer r s)
  | .connectSource items => .outcome (Sys2Proof.Machine.connectSource items s)
  | .connectSink contents answers => .outcome (Sys2Proof.Machine.connectSink contents answers s)

/-- The next event of a state. -/
def nextEvent (s : State) : Event :=
  moveEvent (nextMove s).1 (nextMove s).2

/-! ### Placing an instruction -/

/-- A command placed on the command port of an instance in IDLE, to be accepted at the next step. -/
def placeCommand (c : Command) (s : State) : State :=
  { s with seq := .idle, env := { s.env with cmds := [c], moves := [] } }

/-- A prefix byte placed at the head of the source of an instance in AWAIT_PREFIX of a DECODE, to be delivered at the next
step. -/
def placePrefixByte (b : Byte) (s : State) : State :=
  { s with seq := .awaitPrefix, op := 0b11, env := { s.env with source := [.byte b], moves := [] } }

/-- The instruction of an opcode-table number placed where the next step takes it (log 3, 4). -/
def placeTableWord (nbits w : Nat) (s : State) : State :=
  match tablePort nbits w with
  | .command => placeCommand (Command.ofWord w) s
  | .source => placePrefixByte (BitVec.ofNat 8 w) s

end Sys2Proof.Machine
end

