-- ==== Sys2Proof/Machine/Step.lean ====
section
/-! DEFINITION. One step: one row of the transition table of spec/10_state.md R25, or one move of the environment. -/

namespace Sys2Proof.Machine

/-- One atomic step. An instruction is run by `exec`; every other event has its outcome from the sequencer. -/
def step (s : State) : Host.Outcome State Fault Refusal :=
  match nextEvent s with
  | .run i t => exec i t
  | .outcome r => r

/-- The state with the instruction of an opcode-table number where the next step takes it. -/
def State.withFetchWord (s : State) (nbits w : Nat) : State :=
  placeTableWord nbits w s

end Sys2Proof.Machine
end

