-- ==== Sys2Proof/Machine/Assembler.lean ====
section
/-! DEFINITION. The assembler's text (spec/30_encoding.md R95, R96): a program is a sequence of lines, each with one command
and an optional comment. Text is a list of characters. Blanks are spaces and tabs, and a line may hold a comment alone
(DESIGN CHOICE, log 21). -/

namespace Sys2Proof.Machine

/-- Why a line is an assembly error. -/
inductive AsmError where
  /-- The mnemonic is none of R95's, or it stands with the wrong number of immediates. -/
  | badLine
  /-- The immediate is neither decimal nor `0x` hexadecimal (R95). -/
  | badNumeral
  /-- "An immediate out of range is an assembly error" (R95). -/
  | outOfRange
deriving DecidableEq, Repr

/-- The command that a line of R95 stands for. There are no pseudo-instructions (R96). -/
def lineCommand : AsmLine → Command
  | .prefixLine imm => ⟨0b00#2, BitVec.ofNat 64 imm⟩
  | .sizeLine imm => ⟨0b01#2, BitVec.ofNat 64 imm⟩
  | .encodeLine imm => ⟨0b10#2, BitVec.ofNat 64 imm⟩
  | .decodeLine => ⟨0b11#2, 0⟩

/-- A line in range spells its command; one out of range "spells no command" (R95). -/
def assembleLine (l : AsmLine) : Except AsmError Command :=
  if l.wellFormed then .ok (lineCommand l) else .error .outOfRange

/-! ### Reading text -/

/-- An upper-case letter for a lower-case one: "Mnemonics are case-insensitive" (R95). -/
def upperCase (c : Char) : Char :=
  if 97 ≤ c.toNat ∧ c.toNat ≤ 122 then Char.ofNat (c.toNat - 32) else c

/-- The value of a digit in base 16; 16 for any other character. -/
def digitValue (c : Char) : Nat :=
  if 48 ≤ c.toNat ∧ c.toNat ≤ 57 then c.toNat - 48
  else if 97 ≤ c.toNat ∧ c.toNat ≤ 102 then c.toNat - 87
  else if 65 ≤ c.toNat ∧ c.toNat ≤ 70 then c.toNat - 55
  else 16

/-- The number written by digits of a base, after those that made `acc`. -/
def numeralFrom (base acc : Nat) : List Char → Option Nat
  | [] => some acc
  | c :: cs => if digitValue c < base then numeralFrom base (acc * base + digitValue c) cs else none

/-- A decimal immediate, or a hexadecimal one after `0x` (R95). -/
def numeral : List Char → Option Nat
  | [] => none
  | ['0', 'x'] => none
  | '0' :: 'x' :: digits => numeralFrom 16 0 digits
  | digits => numeralFrom 10 0 digits

/-- Whether a character separates words. -/
def isBlank (c : Char) : Bool :=
  c == ' ' || c == '\t'

/-- Words of a text, the word read so far in `word`, in reverse. -/
def wordsFrom (word : List Char) : List Char → List (List Char)
  | [] => if word.isEmpty then [] else [word.reverse]
  | c :: cs =>
    if isBlank c then (if word.isEmpty then wordsFrom [] cs else word.reverse :: wordsFrom [] cs)
    else wordsFrom (c :: word) cs

/-- The words of a line before its comment. -/
def lineWords (text : List Char) : List (List Char) :=
  wordsFrom [] (text.takeWhile (· != ';'))

/-- The line with a given mnemonic and immediate. -/
def lineWithImmediate (mnemonic : List Char) (imm : Nat) : Option AsmLine :=
  let m := mnemonic.map upperCase
  if m = ['P', 'R', 'E', 'F', 'I', 'X'] then some (.prefixLine imm)
  else if m = ['S', 'I', 'Z', 'E'] then some (.sizeLine imm)
  else if m = ['E', 'N', 'C', 'O', 'D', 'E'] then some (.encodeLine imm)
  else none

/-- One line of text: no command at all, or a line of R95. -/
def parseLine (text : List Char) : Except AsmError (Option AsmLine) :=
  match lineWords text with
  | [] => .ok none
  | [m] => if m.map upperCase = ['D', 'E', 'C', 'O', 'D', 'E'] then .ok (some .decodeLine) else .error .badLine
  | [m, imm] =>
    match numeral imm with
    | none => .error .badNumeral
    | some n =>
      match lineWithImmediate m n with
      | none => .error .badLine
      | some l => .ok (some l)
  | _ => .error .badLine

/-- A whole program: the commands of its lines, in line order (R95). DESIGN CHOICE (log 29): one line in error rejects the
whole program with the error of the first such line, and yields no command; the spec says only that the line "spells no
command". -/
def assemble : List (List Char) → Except AsmError (List Command)
  | [] => .ok []
  | text :: texts =>
    match parseLine text with
    | .error e => .error e
    | .ok none => assemble texts
    | .ok (some l) =>
      match assembleLine l, assemble texts with
      | .error e, _ => .error e
      | .ok _, .error e => .error e
      | .ok c, .ok cs => .ok (c :: cs)

/-- "The commands are issued in line order, each after the previous one's response has been taken" (R95): the caller holds
them in that order. -/
def State.withProgram (s : State) (cmds : List Command) : State :=
  { s with env := { s.env with cmds := cmds } }

end Sys2Proof.Machine
end

