-- ==== Sys2Proof/Machine/Flags.lean ====
section
/-! DEFINITION. The only flag-like state, the tag of RSP (spec/10_state.md R31), as the response port shows it
(30_encoding.md R92, R93), and the lanes of a transfer (20_memory.md R53). -/

namespace Sys2Proof.Machine

/-- The three statuses a response can have (R93). -/
inductive Status where
  | ok
  | ioError
  | overflow
deriving DecidableEq, Repr

/-- `rsp_status` (R93). -/
def Status.bits : Status → BitVec 2
  | .ok => 0b00#2
  | .ioError => 0b01#2
  | .overflow => 0b10#2

/-- Reading `rsp_status`: 0b11 is a state no rule produces, and is refused (R93, U5). -/
def Status.ofBits (b : BitVec 2) : Except Refusal Status :=
  if b = 0b00#2 then .ok .ok
  else if b = 0b01#2 then .ok .ioError
  else if b = 0b10#2 then .ok .overflow
  else .error .statusNeverProduced

/-- The tag of a response (R31). -/
def Response.status : Response → Status
  | .ok _ _ => .ok
  | .ioError _ => .ioError
  | .overflowError _ => .overflow

/-- The response port (R93). A field that R92 gives no value is absent: at the port it reads as any value (U1). -/
structure RspPort where
  status : BitVec 2
  value : Option U64
  extra : Option (BitVec 4)
  count : Option (BitVec 4)
  err : Option IoErr
deriving DecidableEq, Repr

/-- How a response stands on the port (R92, R93). -/
def Response.port : Response → RspPort
  | .ok value extra => { status := Status.ok.bits, value := some value, extra := extra, count := none, err := none }
  | .ioError err => { status := Status.ioError.bits, value := none, extra := none, count := none, err := some err }
  | .overflowError count =>
    { status := Status.overflow.bits, value := none, extra := none, count := some count, err := none }

/-- What the caller sees on the response port: a response is presented in DONE only (R24, R216; log 10). -/
def State.presented (s : State) : Option RspPort :=
  if s.seq = .done then s.rsp.map Response.port else none

/-- The data word of a transfer of n bytes: lane i, bits `[8i+7:8i]`, carries the i-th byte of the stream (R53). -/
def busWord : (s : List Byte) → BitVec (8 * s.length)
  | [] => 0
  | b :: bs => BitVec.ofNat _ (b.toNat + 256 * (busWord bs).toNat)

/-- Lane `i` of a data word (R53). -/
def busLane {n : Nat} (w : BitVec n) (i : Nat) : Byte :=
  w.extractLsb' (8 * i) 8

end Sys2Proof.Machine
end

