-- ==== Sys2Proof/Machine/System.lean ====
section
/-! DEFINITION. Several instances (spec/10_state.md R35, 60_exceptions.md R221): N_INST is OPEN (R6), so a system is a list of
instances, each with its own caller, source and sink. Two instances on one stream (20_memory.md R64, U11) cannot be written
down. -/

namespace Sys2Proof.Machine

/-- A system of N_INST instances, N_INST the length of the list. -/
abbrev System := List State

/-- A system after reset: "each starts at its own reset" (R221). All counters of free values start at 0 (log 22, 26). -/
def System.boot (n : Nat) : System :=
  List.replicate n State.reset

/-- "N_INST is OPEN, at least 1" (R6; 92_eei_decisions.md D2). -/
def System.wellFormed (sys : System) : Bool :=
  decide (1 ≤ sys.length)

/-- One step of instance `k`; there is no move of an instance that does not exist. -/
def System.stepAt (k : Nat) (sys : System) : Host.Outcome System Fault Refusal :=
  match sys[k]? with
  | none => .next sys
  | some s =>
    match step s with
    | .next t => .next (sys.set k t)
    | .fault r => .fault r
    | .refused r => .refused r

/-- The instances moving in a given order, until one stops. -/
def System.runSchedule : List Nat → System → Host.Outcome System Fault Refusal
  | [], sys => .next sys
  | k :: ks, sys =>
    match System.stepAt k sys with
    | .next sys' => System.runSchedule ks sys'
    | .fault r => .fault r
    | .refused r => .refused r

end Sys2Proof.Machine
end

