-- ==== Sys2Proof/Safety.lean ====
section
/-! DEFINITION. What the claims about runs are stated in: running to the end of an operation (spec/70_reset_and_hazards.md
R249), and the invariant of the states that runs reach. -/

namespace Sys2Proof.Machine

/-- `k` steps from a state, if none of them stops. -/
def stepsTo : Nat → State → State → Prop
  | 0, s, t => s = t
  | k + 1, s, t => ∃ u, step s = .next u ∧ stepsTo k u t

/-- Some number of steps, at most `k`, leads to a state. -/
def Reaches (k : Nat) (s t : State) : Prop :=
  ∃ n, n ≤ k ∧ stepsTo n s t

/-- The agent that is due moves at the next step, and `ms` are the moves after it. -/
def State.due (s : State) (ms : List Move) : Prop :=
  s.env.moves = .go :: ms ∨ (s.env.moves = [] ∧ ms = [])

/-- A state from which whoever is due always moves at once. -/
def State.prompt (s : State) : Prop :=
  s.env.moves = []

/-- The state with the moves still to come. -/
def State.withMoves (s : State) (ms : List Move) : State :=
  { s with env := { s.env with moves := ms } }

/-! ### The spec's words for bytes and lengths, apart from the functions that compute them -/

/-- `e` is the number of trailing zero bits of `b`: "the least i in 0..7 with b[i] = 1", or 8 (R10). -/
def IsTrailingZeros (b : Byte) (e : Nat) : Prop :=
  e ≤ 8 ∧ (∀ i, i < e → b.getLsbD i = false) ∧ (e < 8 → b.getLsbD e = true)

/-- `t` is the minimal length of `v`: the least of 1..8 with `v < 2^(7t)`, or 9 (R140). -/
def IsLength (v : U64) (t : Nat) : Prop :=
  1 ≤ t ∧ t ≤ 9 ∧ (t ≤ 8 → v.toNat < 2 ^ (7 * t)) ∧ ∀ k, k < t → 1 ≤ k → 2 ^ (7 * k) ≤ v.toNat

/-- Byte `i` of the varint of length `t` of `v`: the unified form of R168. -/
def wireByte (v : U64) (t i : Nat) : Byte :=
  if i = 0 then (if t = 9 then 0x00 else BitVec.ofNat 8 ((v.toNat <<< t) ||| (1 <<< (t - 1))))
  else BitVec.ofNat 8 (v.toNat >>> (8 * i - min 8 t))

/-- The whole varint of length `t` of `v`, in stream order. -/
def wireBytes (v : U64) (t : Nat) : List Byte :=
  (List.range t).map (wireByte v t)

/-- The sum of R185 in exact arithmetic: extra byte `i` weighs `2^(8i - pad)`. -/
def extraSum (bytes : List Byte) : Nat :=
  ∑ i ∈ Finset.range bytes.length, (bytes.getD i 0).toNat * 2 ^ (8 * (i + 1) - min 8 (bytes.length + 1))

/-- A source that will deliver these bytes. -/
def delivering (bytes : List Byte) : List SrcItem :=
  bytes.map .byte

/-- AWAIT_PREFIX to AWAIT_EXTRA (R25, R182, R183): the prefix byte in BUF[0], its analysis in PAY and EXTRA, and one
`ReadExact(EXTRA)` issued; nothing else changes. -/
def State.awaitingExtra (b : Byte) (payload : U64) (e : Nat) (s : State) : State :=
  { s with
    seq := .awaitExtra
    buf := s.buf.set 0 b
    pay := payload
    extra := BitVec.ofNat 4 e
    env := { s.env with requests := s.env.requests ++ [.readExact e] } }

/-- AWAIT_PREFIX to DONE for a one-byte varint (R25, R183): the value is PAY, and no request is issued. BUF[1..8] hold no
value (R27), so nothing is said of them. -/
def State.endsWithPrefix (b : Byte) (payload : U64) (s t : State) : Prop :=
  t.seq = .done ∧ t.rsp = some (.ok payload none) ∧ t.pay = payload ∧ t.extra = 0 ∧ t.len = 1 ∧ t.buf[0] = b ∧
  t.op = s.op ∧ t.operand = s.operand ∧ t.env = s.env

/-- What an error leaves (R212): RSP has the error, SEQ is DONE, and OP and OPERAND are as before. BUF, LEN, PAY and EXTRA
hold no value, so nothing is said of them. -/
def State.raised (r : Response) (s t : State) : Prop :=
  t.rsp = some r ∧ t.seq = .done ∧ t.op = s.op ∧ t.operand = s.operand

/-! ### Two states that no operation can tell apart -/

/-- Equal but for what an earlier operation left in BUF, LEN, PAY, EXTRA and RSP (R33): in each phase the latches that the
operation in flight has written are equal, the others are anything. -/
structure State.Agree (s t : State) : Prop where
  seq : s.seq = t.seq
  op : s.op = t.op
  operand : s.operand = t.operand
  env : s.env = t.env
  freeIx : s.freeIx = t.freeIx
  analysis : s.seq = .awaitExtra → s.pay = t.pay ∧ s.extra = t.extra
  output : s.seq = .awaitWrite → s.len = t.len ∧ s.bufBytes = t.bufBytes
  response : s.seq = .done → s.rsp = t.rsp

/-! ### The invariant -/

/-- LEN, EXTRA and PAY in the ranges of R23. -/
def State.latchesInRange (s : State) : Prop :=
  s.len.toNat ≤ 9 ∧ s.extra.toNat ≤ 8 ∧ s.pay.toNat ≤ 127

/-- A response that R92 allows for an op code; OVERFLOW is never produced (R92, R213). -/
def Response.allowedFor (op : BitVec 2) : Response → Prop
  | .ok value extra =>
    (op = 0b00 → value.toNat ≤ 127 ∧ ∃ e, extra = some e ∧ e.toNat ≤ 8) ∧
    (op = 0b01 → 1 ≤ value.toNat ∧ value.toNat ≤ 9 ∧ extra = none) ∧
    (op = 0b10 → 1 ≤ value.toNat ∧ value.toNat ≤ 9 ∧ extra = none) ∧
    (op = 0b11 → extra = none)
  | .ioError _ => op = 0b10 ∨ op = 0b11
  | .overflowError _ => False

/-- What each phase says of the latches (R24, R25, R27, R28). -/
def State.phaseHolds (s : State) : Prop :=
  match s.seq with
  | .idle => True
  | .awaitPrefix => s.op = 0b11
  | .awaitExtra => s.op = 0b11 ∧ 1 ≤ s.extra.toNat ∧ analyze s.buf[0] = .ok s.pay s.extra
  | .awaitWrite => s.op = 0b10 ∧ s.bufBytes = encodeBytes s.operand ∧ 1 ≤ s.len.toNat
  | .done => s.rsp.isSome = true

/-- Requests of the sizes the stream contracts know: `ReadExact(n)` with 1 ≤ n ≤ 8 (R55), and `WriteAll(s)` with s the
canonical varint of some value (R60, R166). -/
def Request.inContract : Request → Prop
  | .readExact n => 1 ≤ n ∧ n ≤ 8
  | .writeAll s => ∃ v, s = encodeBytes v

/-- A response that is not OVERFLOW: "no run of the core produces this response" (R213). -/
def Response.notOverflow (r : Response) : Prop :=
  ∀ count, r ≠ .overflowError count

/-- The invariant of every run: the latches are in range; each phase has what it needs; a presented response is one of the
latched operation; no response was ever OVERFLOW; and every request issued keeps its contract. -/
structure State.Inv (s : State) : Prop where
  inRange : s.latchesInRange
  phase : s.phaseHolds
  response : ∀ r, s.seq = .done → s.rsp = some r → r.allowedFor s.op
  latest : ∀ r, s.rsp = some r → r.notOverflow
  taken : ∀ r ∈ s.env.taken, r.notOverflow
  requests : ∀ q ∈ s.env.requests, q.inContract

end Sys2Proof.Machine
end

