-- ==== Sys2Proof/Certificates/Slice0/Obligations.lean ====
section
/-! DEFINITION. The statements for the provers. Each docstring names the rules of spec/ that it formalises. -/

open Sys2Proof Sys2Proof.Machine

/-! ### Encodings -/

/-- Decoding the word of any instruction gives the instruction back, with every operand at every value. The layout of the two
command fields in one number is the model's choice (log 2); the fields and classes are R89, R90 and R83. -/
def Obligations.DecodeOfEncodeIsTheInstruction : Prop :=
  ∀ i : Instr, decode (encode i).1 (encode i).2 = .ok i

/-- Every word that a port can carry decodes, and encoding the instruction gives the port and the word back: no word is
illegal, and no two words mean the same (R86, R94). That a command's two fields form one word, and in which order, is the
model's choice (log 2). -/
def Obligations.EncodeOfDecodeIsTheWord : Prop :=
  ∀ (port : Port) (w : Nat), port.wordWellFormed w = true → ∃ i, decode port w = .ok i ∧ encode i = (port, w)

/-- R90: the four op codes, each with any operand. -/
def Obligations.OpCodesSelectTheFourOperations : Prop :=
  ∀ x : U64, decodeCommand ⟨0b00#2, x⟩ = .prefixOp x ∧ decodeCommand ⟨0b01#2, x⟩ = .size x ∧
    decodeCommand ⟨0b10#2, x⟩ = .encode x ∧ decodeCommand ⟨0b11#2, x⟩ = .decode x

/-- R83: every byte belongs to exactly one of the nine classes of the table of masks. -/
def Obligations.PrefixClassesPartitionTheBytes : Prop :=
  ∀ b : Byte,
    ([((0x01#8, 0x01#8)), (0x03#8, 0x02#8), (0x07#8, 0x04#8), (0x0F#8, 0x08#8), (0x1F#8, 0x10#8), (0x3F#8, 0x20#8),
      (0x7F#8, 0x40#8), (0xFF#8, 0x80#8), (0xFF#8, 0x00#8)].filter fun r => inClass r.1 r.2 b).length = 1

/-- Four words written out by hand. The prefix byte 0xB2 of 300 and the zero byte are the spec's own bytes (R83). For
`SIZE 300` and `ENCODE 300` the spec gives the two fields (R89, R90) and no packed word: that their word is
`op + 4 * operand` is the model's choice (DESIGN CHOICE, log 2). -/
def Obligations.WrittenOutWordsDecode : Prop :=
  decode .command (0b01 + 4 * 0x12C) = .ok (.size 300) ∧ decode .command (0b10 + 4 * 0x12C) = .ok (.encode 300) ∧
    decode .source 0b10110010 = .ok (.prefixClassT2 0b101100) ∧ decode .source 0b00000000 = .ok .prefixClassT9

/-! ### PREFIX -/

/-- R121, R122, R123: PREFIX in IDLE ends in DONE with the number of trailing zeros of operand[7:0] and the bits above the
terminator; the whole next state is given, so nothing else changes. -/
def Obligations.PrefixAnswersPayloadAndExtra : Prop :=
  ∀ x : U64, ∃ (e : Nat) (payload : U64),
    IsTrailingZeros (BitVec.ofNat 8 x.toNat) e ∧ payload.toNat = (BitVec.ofNat 8 x.toNat).toNat / 2 ^ (e + 1) ∧
    ∀ s : State, s.seq = .idle →
      exec (.prefixOp x) s = .next
        { s with seq := .done, op := 0b00, operand := x, rsp := some (.ok payload (some (BitVec.ofNat 4 e))) }

/-- R125: the ranges of `Analyze`, how the byte is recovered, and that every pair in range comes from a byte. -/
def Obligations.AnalyzeIsABijection : Prop :=
  (∀ b : Byte, ∃ (p : U64) (e : BitVec 4), analyze b = .ok p e ∧ e.toNat ≤ 8 ∧
    (e.toNat ≤ 7 → p.toNat < 2 ^ (7 - e.toNat) ∧ b.toNat = p.toNat * 2 ^ (e.toNat + 1) + 2 ^ e.toNat) ∧
    (e.toNat = 8 → p = 0 ∧ b = 0)) ∧
  (∀ (p : U64) (e : BitVec 4), e.toNat ≤ 7 → p.toNat < 2 ^ (7 - e.toNat) → ∃ b, analyze b = .ok p e) ∧
  analyze 0 = .ok 0 8

/-- R213: no step makes an OVERFLOW response that was not there before, from any state. -/
def Obligations.NoStepProducesOverflow : Prop :=
  ∀ (s t : State) (count : BitVec 4), step s = .next t → t.rsp = some (.overflowError count) →
    s.rsp = some (.overflowError count)

/-! ### SIZE -/

/-- R141: SIZE in IDLE ends in DONE with the minimal length of its operand, which lies in 1..9 and depends on the operand
alone; the whole next state is given. -/
def Obligations.SizeAnswersTheMinimalLength : Prop :=
  ∀ v : U64, ∃ T, IsLength v T ∧
    ∀ s : State, s.seq = .idle →
      exec (.size v) s = .next
        { s with seq := .done, op := 0b01, operand := v, rsp := some (.ok (BitVec.ofNat 64 T) none) }

/-- R142: the answers of SIZE never decrease with the operand. -/
def Obligations.SizeIsMonotonic : Prop :=
  ∀ (v w : U64) (s : State), s.seq = .idle → v.toNat ≤ w.toNat →
    ∃ (t u : State) (a b : U64), exec (.size v) s = .next t ∧ exec (.size w) s = .next u ∧
      t.rsp = some (.ok a none) ∧ u.rsp = some (.ok b none) ∧ a.toNat ≤ b.toNat

/-- R143: SIZE answers T exactly on the T row's range of the boundary table. -/
def Obligations.SizeBoundaryTable : Prop :=
  ∀ (s : State) (v : U64), s.seq = .idle →
    ∀ row ∈ [(1, 0, 0x7F), (2, 0x80, 0x3FFF), (3, 0x4000, 0x1FFFFF), (4, 0x200000, 0xFFFFFFF),
        (5, 0x10000000, 0x7FFFFFFFF), (6, 0x800000000, 0x3FFFFFFFFFF), (7, 0x40000000000, 0x1FFFFFFFFFFFF),
        (8, 0x2000000000000, 0xFFFFFFFFFFFFFF), (9, 0x100000000000000, 0xFFFFFFFFFFFFFFFF)],
      (∃ t, exec (.size v) s = .next t ∧ t.rsp = some (.ok (BitVec.ofNat 64 row.1) none)) ↔
        (row.2.1 ≤ v.toNat ∧ v.toNat ≤ row.2.2)

/-- R144: the comparator form of SIZE: one more than the number of k in 1..8 with a bit of v at position 7k or above, which
is the test `v ≥ 2^(7k)`; the tests are nested, and from 2^56 on the sum is 9. -/
def Obligations.SizeComparatorForm : Prop :=
  ∀ v : U64,
    (∀ s : State, s.seq = .idle →
      ∃ t, exec (.size v) s = .next t ∧
        t.rsp = some (.ok (BitVec.ofNat 64 (1 + ∑ k ∈ Finset.Icc 1 8, if v >>> (7 * k) ≠ 0 then 1 else 0)) none)) ∧
    (∀ k, v >>> (7 * k) ≠ 0 ↔ 2 ^ (7 * k) ≤ v.toNat) ∧
    (∀ j k, j < k → v >>> (7 * k) ≠ 0 → v >>> (7 * j) ≠ 0) ∧
    (2 ^ 56 ≤ v.toNat → 1 + (∑ k ∈ Finset.Icc 1 8, if v >>> (7 * k) ≠ 0 then 1 else 0) = 9)

/-- R145: the bit-length form of SIZE, with `Nat.size` the index of the highest set bit plus one. -/
def Obligations.SizeBitLengthForm : Prop :=
  ∀ (s : State) (v : U64), s.seq = .idle →
    ∃ t T, exec (.size v) s = .next t ∧ t.rsp = some (.ok (BitVec.ofNat 64 T) none) ∧
      (v.toNat.size ≤ 7 → T = 1) ∧ (8 ≤ v.toNat.size → v.toNat.size ≤ 56 → T = (v.toNat.size + 6) / 7) ∧
      (57 ≤ v.toNat.size → T = 9)

/-! ### ENCODE -/

/-- R168: ENCODE in IDLE fills BUF with the bytes of the unified form, LEN with the minimal length T, issues one `WriteAll` of
those T bytes and waits; BUF[T..8] hold no value, and everything else is as it was. The Decoder's fold takes those bytes
back to the operand. -/
def Obligations.EncodeFillsTheBufferAndWrites : Prop :=
  ∀ (v : U64) (T : Nat) (s : State), IsLength v T → s.seq = .idle →
    ∃ t, exec (.encode v) s = .next t ∧ t.seq = .awaitWrite ∧ t.op = 0b10 ∧ t.operand = v ∧ t.len.toNat = T ∧
      (∀ i, i < T → t.buf.toList[i]? = some (wireByte v T i)) ∧
      t.env = { s.env with requests := s.env.requests ++ [.writeAll (wireBytes v T)] } ∧
      t.pay = s.pay ∧ t.extra = s.extra ∧ t.rsp = s.rsp ∧ wireValue (wireBytes v T) = some v

/-- The sink's Ok (R25, R60, R165): BUF[0..LEN-1] is appended to the sink, the response is LEN, and nothing else changes. -/
def Obligations.SinkOkEndsEncode : Prop :=
  ∀ (s : State) (ms : List Move) (answers : List SinkAnswer), s.seq = .awaitWrite → s.due ms →
    1 ≤ s.len.toNat → s.len.toNat ≤ 9 → s.env.sinkAnswers = .ok :: answers →
    step s = .next
      { s with
        seq := .done
        rsp := some (.ok (s.len.setWidth 64) none)
        env := { s.env with
          sink := s.env.sink ++ s.buf.toList.take s.len.toNat, sinkAnswers := answers, moves := ms } }

/-- The sink's error is the response, verbatim; nothing is retried, for no request is issued and the rest of the environment
but the sink is as it was (R167). That the sink's later answers stay as they are listed is the model's choice (log 32). -/
def Obligations.SinkErrorIsRaisedVerbatim : Prop :=
  ∀ (s : State) (ms : List Move) (e : IoErr) (answers : List SinkAnswer), s.seq = .awaitWrite → s.due ms →
    1 ≤ s.len.toNat → s.len.toNat ≤ 9 → s.env.sinkAnswers = .err e :: answers →
    ∃ t contents, step s = .next t ∧ s.raised (.ioError e) t ∧
      t.env = { s.env with sink := contents, sinkAnswers := answers, moves := ms }

/-- R62: an ENCODE takes two steps and issues exactly one `WriteAll`, of exactly the T bytes of the canonical varint,
whatever the sink answers; when it accepts, BUF[0..T-1] are those bytes, they and nothing else have been appended to the
sink, and the response is T; when it fails, the response is its error. -/
def Obligations.EncodeWritesExactlyTheCanonicalVarint : Prop :=
  ∀ (s : State) (v : U64) (T : Nat) (cs : List Command) (a : SinkAnswer) (answers : List SinkAnswer), IsLength v T →
    s.seq = .idle → s.prompt → s.env.cmds = ⟨0b10, v⟩ :: cs → s.env.sinkAnswers = a :: answers →
    ∃ t, stepsTo 2 s t ∧ t.seq = .done ∧ (wireBytes v T).length = T ∧
      t.env.requests = s.env.requests ++ [.writeAll (wireBytes v T)] ∧ t.env.source = s.env.source ∧
      (a = .ok → t.rsp = some (.ok (BitVec.ofNat 64 T) none) ∧ t.buf.toList.take T = wireBytes v T ∧
        t.env = { s.env with
          cmds := cs, sink := s.env.sink ++ wireBytes v T, sinkAnswers := answers
          requests := s.env.requests ++ [.writeAll (wireBytes v T)] }) ∧
      ∀ e, a = .err e → t.rsp = some (.ioError e)

/-! ### DECODE -/

/-- R181: DECODE in IDLE issues `ReadExact(1)` and waits for it; the operand is latched, and nothing else changes. -/
def Obligations.DecodeIssuesThePrefixRead : Prop :=
  ∀ (x : U64) (s : State), s.seq = .idle →
    exec (.decode x) s = .next
      { s with
        seq := .awaitPrefix, op := 0b11, operand := x
        env := { s.env with requests := s.env.requests ++ [.readExact 1] } }

/-- A prefix byte of class T1 in AWAIT_PREFIX ends the DECODE with its payload (R83, R183). That the class row of the table
means the source's answer with a byte of that class is the model's reading (DEDUCED, log 13). -/
def Obligations.ClassT1EndsTheDecode : Prop :=
  ∀ (p : BitVec 7) (s : State), s.seq = .awaitPrefix →
    ∃ t, exec (.prefixClassT1 p) s = .next t ∧
      s.endsWithPrefix (BitVec.ofNat 8 (p.toNat * 2 + 1)) (BitVec.ofNat 64 p.toNat) t

/-- A prefix byte of class T2 to T9 in AWAIT_PREFIX: PAY is its payload bits, EXTRA its extra count, and one read of EXTRA
bytes is issued (R81 to R83, R183). That a class row of the table means the source's answer with such a byte is the model's
reading (DEDUCED, log 13). The whole next state is given: that LEN and BUF[1..8] stay as they were is the model's reading too
(DEDUCED, log 24). -/
def Obligations.ClassesT2ToT9AwaitTheirExtraBytes : Prop :=
  ∀ s : State, s.seq = .awaitPrefix →
    (∀ p : BitVec 6, exec (.prefixClassT2 p) s =
      .next (s.awaitingExtra (BitVec.ofNat 8 (p.toNat * 4 + 2)) (BitVec.ofNat 64 p.toNat) 1)) ∧
    (∀ p : BitVec 5, exec (.prefixClassT3 p) s =
      .next (s.awaitingExtra (BitVec.ofNat 8 (p.toNat * 8 + 4)) (BitVec.ofNat 64 p.toNat) 2)) ∧
    (∀ p : BitVec 4, exec (.prefixClassT4 p) s =
      .next (s.awaitingExtra (BitVec.ofNat 8 (p.toNat * 16 + 8)) (BitVec.ofNat 64 p.toNat) 3)) ∧
    (∀ p : BitVec 3, exec (.prefixClassT5 p) s =
      .next (s.awaitingExtra (BitVec.ofNat 8 (p.toNat * 32 + 16)) (BitVec.ofNat 64 p.toNat) 4)) ∧
    (∀ p : BitVec 2, exec (.prefixClassT6 p) s =
      .next (s.awaitingExtra (BitVec.ofNat 8 (p.toNat * 64 + 32)) (BitVec.ofNat 64 p.toNat) 5)) ∧
    (∀ p : BitVec 1, exec (.prefixClassT7 p) s =
      .next (s.awaitingExtra (BitVec.ofNat 8 (p.toNat * 128 + 64)) (BitVec.ofNat 64 p.toNat) 6)) ∧
    exec .prefixClassT8 s = .next (s.awaitingExtra 0x80 0 7) ∧
    exec .prefixClassT9 s = .next (s.awaitingExtra 0x00 0 8)

/-- The byte that the source delivers in AWAIT_PREFIX, by its trailing zeros: the end of the operation when there are none,
one read of that many bytes otherwise (R182, R183). In the second case the whole next state is given: that LEN and BUF[1..8]
stay as they were is the model's reading (DEDUCED, log 24). -/
def Obligations.DeliveredPrefixByteSelectsTheSecondRead : Prop :=
  ∀ (s : State) (ms : List Move) (b : Byte) (e : Nat) (rest : List SrcItem), s.seq = .awaitPrefix → s.due ms →
    IsTrailingZeros b e → s.env.source = .byte b :: rest →
    ∃ t, step s = .next t ∧
      (e = 0 → (setSource rest (s.withMoves ms)).endsWithPrefix b (BitVec.ofNat 64 (b.toNat / 2)) t) ∧
      (1 ≤ e → t = (setSource rest (s.withMoves ms)).awaitingExtra b (BitVec.ofNat 64 (b.toNat / 2 ^ (e + 1))) e)

/-- The model's choice (log 12), for the move that R63 and U4 rule out: a prefix byte that arrives when no prefix read is
outstanding is refused by name. -/
def Obligations.PrefixByteWithoutARequestIsRefused : Prop :=
  ∀ (i : Instr) (s : State), (encode i).1 = .source → s.seq ≠ .awaitPrefix → exec i s = .refused .unrequestedAnswer

/-- R184, R185: the answer to the extra-bytes read ends the DECODE with the payload OR the sum of the extra bytes at their
offsets; BUF and LEN hold the bytes, the source is advanced past them, and everything else is as it was. -/
def Obligations.ExtraBytesAreFolded : Prop :=
  ∀ (s : State) (ms : List Move) (bytes : List Byte) (rest : List SrcItem), s.seq = .awaitExtra → s.due ms →
    1 ≤ s.extra.toNat → s.extra.toNat ≤ 8 → bytes.length = s.extra.toNat →
    s.env.source = delivering bytes ++ rest →
    ∃ t, step s = .next t ∧ t.seq = .done ∧ t.rsp = some (.ok (s.pay ||| BitVec.ofNat 64 (extraSum bytes)) none) ∧
      t.len.toNat = s.extra.toNat + 1 ∧ t.buf.toList.take (s.extra.toNat + 1) = s.buf[0] :: bytes ∧
      t.pay = s.pay ∧ t.extra = s.extra ∧ t.op = s.op ∧ t.operand = s.operand ∧
      t.env = { s.env with source := rest, moves := ms }

/-- R189: the source's error ends the DECODE in either phase with that error, verbatim, whether it comes at once or after
some of the bytes asked for; no request is issued, and the rest of the environment but the source is as it was. -/
def Obligations.SourceErrorIsRaisedVerbatim : Prop :=
  ∀ (s : State) (ms : List Move) (bytes : List Byte) (e : IoErr) (rest : List SrcItem), s.due ms →
    (s.seq = .awaitPrefix ∧ bytes = [] ∨ s.seq = .awaitExtra ∧ bytes.length < s.extra.toNat ∧ s.extra.toNat ≤ 8) →
    s.env.source = delivering bytes ++ .fail e :: rest →
    ∃ t items, step s = .next t ∧ s.raised (.ioError e) t ∧ t.env = { s.env with source := items, moves := ms }

/-- R186: what a varint carries is the exact sum of its payload and its extra bytes at their offsets, below `2^(7T)` for
T ≤ 8; and within a prefix class different bytes carry different values, every value in range among them. -/
def Obligations.FoldIsExactAndOneToOne : Prop :=
  (∀ (b : Byte) (bs : List Byte), IsTrailingZeros b bs.length →
    ∃ v, wireValue (b :: bs) = some v ∧ v.toNat = b.toNat / 2 ^ (bs.length + 1) + extraSum bs ∧
      (bs.length ≤ 7 → v.toNat < 2 ^ (7 * (bs.length + 1)))) ∧
  (∀ (as bs : List Byte) (v : U64), as.length = bs.length → wireValue as = some v → wireValue bs = some v → as = bs) ∧
  (∀ (T : Nat) (v : U64), 1 ≤ T → T ≤ 9 → (T ≤ 8 → v.toNat < 2 ^ (7 * T)) →
    ∃ bs, bs.length = T ∧ wireValue bs = some v)

/-- R88: a value has exactly one encoding of each length from its minimal one to 9, none shorter and none longer, and the
one of minimal length is what ENCODE writes. -/
def Obligations.OneEncodingOfEachLength : Prop :=
  ∀ (v : U64) (n : Nat), IsLength v n →
    (∀ T, n ≤ T → T ≤ 9 → ∃! bs, bs.length = T ∧ wireValue bs = some v) ∧
    (∀ bs, bs.length < n ∨ 9 < bs.length → wireValue bs ≠ some v) ∧
    wireValue (wireBytes v n) = some v

/-- R187: a DECODE takes from the source exactly the bytes of one varint, whatever follows them, and answers the value they
carry, with one read for the prefix and one more only for extra bytes (R59); and the T bytes that ENCODE writes for v are
a varint that carries v. -/
def Obligations.DecodeConsumesExactlyOneVarint : Prop :=
  (∀ (s : State) (x v : U64) (bs : List Byte) (rest : List SrcItem) (cs : List Command), wireValue bs = some v →
    s.seq = .idle → s.prompt → s.env.cmds = ⟨0b11, x⟩ :: cs → s.env.source = delivering bs ++ rest →
    ∃ t, Reaches 3 s t ∧ t.seq = .done ∧ t.rsp = some (.ok v none) ∧
      t.env = { s.env with
        cmds := cs, source := rest
        requests := s.env.requests ++ .readExact 1 ::
          (if bs.length = 1 then [] else [.readExact (bs.length - 1)]) }) ∧
  ∀ (v : U64) (T : Nat), IsLength v T → wireValue (wireBytes v T) = some v ∧ (wireBytes v T).length = T

/-- R187, the round trip: DECODE of the bytes that ENCODE writes for v answers v and consumes exactly those bytes. -/
def Obligations.DecodeUndoesEncode : Prop :=
  ∀ (s : State) (x v : U64) (T : Nat) (rest : List SrcItem) (cs : List Command), IsLength v T → s.seq = .idle →
    s.prompt → s.env.cmds = ⟨0b11, x⟩ :: cs → s.env.source = delivering (wireBytes v T) ++ rest →
    ∃ t, Reaches 3 s t ∧ t.seq = .done ∧ t.rsp = some (.ok v none) ∧ t.env.source = rest

/-- R188: any prefix byte followed by as many bytes as it declares is decoded, canonical or not: no check refuses it. -/
def Obligations.NonCanonicalVarintsAreDecoded : Prop :=
  ∀ (s : State) (x : U64) (b : Byte) (bs : List Byte) (rest : List SrcItem) (cs : List Command),
    IsTrailingZeros b bs.length → s.seq = .idle → s.prompt → s.env.cmds = ⟨0b11, x⟩ :: cs →
    s.env.source = delivering (b :: bs) ++ rest →
    ∃ t v, Reaches 3 s t ∧ t.seq = .done ∧ t.rsp = some (.ok v none) ∧
      v.toNat = b.toNat / 2 ^ (bs.length + 1) + extraSum bs ∧ t.env.source = rest

/-- R247: varints that stand back to back on the source are decoded by one DECODE each, in order, with nothing left over. -/
def Obligations.BackToBackVarintsDecodeInOrder : Prop :=
  ∀ (wires : List (List Byte × U64)) (s : State) (rest : List SrcItem) (cs : List Command),
    (∀ w ∈ wires, wireValue w.1 = some w.2) → s.seq = .idle → s.prompt →
    s.env.cmds = List.replicate wires.length ⟨0b11, 0⟩ ++ cs →
    s.env.source = delivering (wires.flatMap fun w => w.1) ++ rest →
    ∃ t, Reaches (4 * wires.length) s t ∧ t.seq = .idle ∧ t.env.cmds = cs ∧ t.env.source = rest ∧
      t.env.taken = s.env.taken ++ wires.map fun w => .ok w.2 none

/-! ### The sequencer -/

/-- A step in IDLE runs the command on the port as the decoder reads it (R25, R90), with the command off the caller's list
and the move used up. -/
def Obligations.StepRunsTheOfferedCommand : Prop :=
  ∀ (s : State) (ms : List Move) (c : Command) (cs : List Command), s.seq = .idle → s.due ms → s.env.cmds = c :: cs →
    ∃ i, decode .command c.toWord = .ok i ∧
      step s = exec i { s with env := { s.env with cmds := cs, moves := ms } }

/-- A step in AWAIT_PREFIX runs the byte that the source delivers as the decoder reads it (R25, R83), with the byte off the
source and the move used up. That the byte's class is the instruction of this step is the model's reading (log 13). -/
def Obligations.StepRunsTheDeliveredPrefixByte : Prop :=
  ∀ (s : State) (ms : List Move) (b : Byte) (rest : List SrcItem), s.seq = .awaitPrefix → s.due ms →
    s.env.source = .byte b :: rest →
    ∃ i, decode .source b.toNat = .ok i ∧ step s = exec i { s with env := { s.env with source := rest, moves := ms } }

/-- In any phase but IDLE no command is accepted, and one that the caller offers is only held (R25, R244). That exec of a
command in such a phase, a case that no step meets, answers the same state is the model's reading (DEDUCED, log 14). -/
def Obligations.CommandsAreAcceptedInIdleOnly : Prop :=
  ∀ (s : State) (x : U64), s.seq ≠ .idle →
    exec (.prefixOp x) s = .next s ∧ exec (.size x) s = .next s ∧ exec (.encode x) s = .next s ∧
    exec (.decode x) s = .next s ∧
    ∀ (c : Command) (ms : List Move), s.env.moves = .offer c :: ms →
      step s = .next { s with env := { s.env with cmds := s.env.cmds ++ [c], moves := ms } }

/-- R26: OP and OPERAND change only when a command is accepted in IDLE, to that command's fields, or at a reset. -/
def Obligations.OpAndOperandChangeAtAcceptanceOnly : Prop :=
  ∀ s t : State, step s = .next t →
    (t.op = s.op ∧ t.operand = s.operand) ∨
    (s.seq = .idle ∧ ∃ c cs, s.env.cmds = c :: cs ∧ t.op = c.op ∧ t.operand = c.operand ∧ t.env.cmds = cs) ∨
    ∃ ms, s.env.moves = .reset :: ms

/-- The DONE row of R25: the caller takes the response, and SEQ is IDLE. That RSP stays as it was, no longer presented, is
the model's reading of the action "none" (log 10), and that BUF, LEN, PAY and EXTRA stay as they were is the model's choice
(log 27). -/
def Obligations.TakingTheResponseLeadsToIdle : Prop :=
  ∀ (s : State) (ms : List Move) (r : Response), s.seq = .done → s.due ms → s.rsp = some r →
    s.presented = some r.port ∧
    ∃ t, step s = .next t ∧ t.presented = none ∧
      t = { s with seq := .idle, env := { s.env with taken := s.env.taken ++ [r], moves := ms } }

/-- While the source has not answered, an instance that waits for it stays there (R58). The move of the agent that is due and
a stall answer the same state; after any other move that answers a next state, but a reset, every latch, the requests and
the source are as before. (The moves connectSource and a late answer to no abandoned request are refused, log 12.) A source
that has not answered is, in the model, one that holds too few bytes and no failure (log 1, 23), and that it keeps all of them
until it answers is the model's choice (log 33). -/
def Obligations.AnUnansweredReadBlocks : Prop :=
  ∀ (s : State) (bytes : List Byte), s.env.source = delivering bytes →
    (s.seq = .awaitPrefix ∧ bytes = [] ∨ s.seq = .awaitExtra ∧ bytes.length < s.extra.toNat ∧ s.extra.toNat ≤ 8) →
    (∀ ms, s.due ms → step s = .next (s.withMoves ms)) ∧
    (∀ ms, s.env.moves = .stall :: ms → step s = .next (s.withMoves ms)) ∧
    ∀ t, step s = .next t → (∀ ms, s.env.moves ≠ .reset :: ms) →
      t.seq = s.seq ∧ t.op = s.op ∧ t.operand = s.operand ∧ t.buf = s.buf ∧ t.len = s.len ∧ t.pay = s.pay ∧
        t.extra = s.extra ∧ t.rsp = s.rsp ∧ t.env.requests = s.env.requests ∧ t.env.source = s.env.source

/-- A step issues at most one request, waits for it from then on, and never has another one waiting (R59, R63). -/
def Obligations.AtMostOneRequestIsOutstanding : Prop :=
  ∀ s t : State, step s = .next t →
    t.env.requests = s.env.requests ∨
    ∃ r, t.env.requests = s.env.requests ++ [r] ∧ t.outstanding = some r ∧
      (s.outstanding = none ∨ s.outstanding = some (.readExact 1))

/-- R50: a step changes the source of an instance in its invariant only while a read of a DECODE is outstanding, and its sink
only while the write of an ENCODE is, unless the environment itself connects another one. So no command changes a stream as
it is accepted, whatever OP an earlier operation left, and neither does the taking of a response. That a request abandoned
by a reset changes its stream at the reset and never later is the model's choice (log 31). -/
def Obligations.OnlyDecodeReadsAndOnlyEncodeWrites : Prop :=
  ∀ s t : State, s.Inv → step s = .next t →
    (t.env.source ≠ s.env.source → s.reading = true ∧ s.op = 0b11 ∨ ∃ items ms, s.env.moves = .connectSource items :: ms) ∧
    (t.env.sink ≠ s.env.sink → s.writing = true ∧ s.op = 0b10 ∨
      ∃ items answers ms, s.env.moves = .connectSink items answers :: ms)

/-- R33: two instances in IDLE that differ only in what earlier operations left in BUF, LEN, PAY, EXTRA and RSP do the same
for ever: the same phases, the same traffic with their environments, the same responses. -/
def Obligations.LeftoverLatchesAreNeverRead : Prop :=
  ∀ (k : Nat) (s t : State) (buf : Vector Byte 9) (len extra : BitVec 4) (pay : U64) (rsp : Option Response),
    s.seq = .idle → stepsTo k s t →
    ∃ t', stepsTo k { s with buf := buf, len := len, pay := pay, extra := extra, rsp := rsp } t' ∧
      t'.seq = t.seq ∧ t'.op = t.op ∧ t'.operand = t.operand ∧ t'.env = t.env ∧ (t.seq = .done → t'.rsp = t.rsp)

/-- One step keeps two states that agree on what their operations have written in agreement, and stops both or neither for
the same reason (R33). -/
def Obligations.StepsAgreeOnStatesThatAgree : Prop :=
  ∀ s s' : State, s.Agree s' →
    (∃ t t', step s = .next t ∧ step s' = .next t' ∧ t.Agree t') ∨
    (∃ r, step s = .fault r ∧ step s' = .fault r) ∨ ∃ r, step s = .refused r ∧ step s' = .refused r

/-! ### Errors, reset, ports -/

/-- R212: an error writes RSP with its tag and its one field and sets SEQ to DONE; no request is issued, and nothing else but
the latches that hold no value afterwards changes. -/
def Obligations.RaiseWritesTheErrorResponse : Prop :=
  ∀ s : State,
    (∀ e, s.raised (.ioError e) (raise (.io e) s) ∧ (raise (.io e) s).env = s.env) ∧
    ∀ n, s.raised (.overflowError n) (raise (.overflow n) s) ∧ (raise (.overflow n) s).env = s.env

/-- R34: after reset SEQ is IDLE and no response is presented. -/
def Obligations.ResetStateIsIdleAndEmpty : Prop :=
  State.reset.seq = .idle ∧ State.reset.rsp = none ∧ State.reset.presented = none

/-- R240: reset in any phase leads to IDLE with RSP empty. -/
def Obligations.ResetFromAnyPhaseLeadsToIdle : Prop :=
  ∀ (s : State) (ms : List Move), s.env.moves = .reset :: ms →
    ∃ t, step s = .next t ∧ t.seq = .idle ∧ t.rsp = none ∧ t.env.moves = ms

/-- A reset gives no response for the operation in flight and abandons its request; the answer to an abandoned request is
ignored, in whatever phase it arrives (R241). The second part gives the whole next state: that a late answer is a move of its
own (log 19), and that the streams stay as they are then (log 31), are the model's choices. -/
def Obligations.ResetAbandonsTheOperation : Prop :=
  (∀ (s : State) (ms : List Move), s.env.moves = .reset :: ms →
    ∃ t, step s = .next t ∧ t.presented = none ∧ t.env.taken = s.env.taken ∧ t.outstanding = none ∧
      t.env.abandoned = s.env.abandoned ++ s.outstanding.toList) ∧
  (∀ (s : State) (ms : List Move) (r : Request), s.env.moves = .lateAnswer r :: ms → r ∈ s.env.abandoned →
    step s = .next { s with env := { s.env with moves := ms, abandoned := s.env.abandoned.erase r } })

/-- R93: the codes of `rsp_status`, and that 0b11 is refused by the reader of the port (U5). -/
def Obligations.ResponsePortCodes : Prop :=
  (∀ (v : U64) (x : Option (BitVec 4)), (Response.ok v x).port = ⟨0b00, some v, x, none, none⟩) ∧
  (∀ e, (Response.ioError e).port = ⟨0b01, none, none, none, some e⟩) ∧
  (∀ n, (Response.overflowError n).port = ⟨0b10, none, none, some n, none⟩) ∧
  (∀ r : Response, Status.ofBits r.port.status = .ok r.status) ∧
  Status.ofBits 0b11 = .error .statusNeverProduced

/-- R53: lane i of the data word of a transfer carries byte i of the stream. -/
def Obligations.LanesCarryTheStreamInOrder : Prop :=
  ∀ (bytes : List Byte) (i : Nat) (h : i < bytes.length), busLane (busWord bytes) i = bytes[i]

/-- R95: an immediate in range spells the command of its line, and one out of range spells none. -/
def Obligations.AssemblerRangesAreChecked : Prop :=
  ∀ n : Nat,
    (n < 2 ^ 8 → assembleLine (.prefixLine n) = .ok ⟨0b00, BitVec.ofNat 64 n⟩) ∧
    (2 ^ 8 ≤ n → assembleLine (.prefixLine n) = .error .outOfRange) ∧
    (n < 2 ^ 64 → assembleLine (.sizeLine n) = .ok ⟨0b01, BitVec.ofNat 64 n⟩ ∧
      assembleLine (.encodeLine n) = .ok ⟨0b10, BitVec.ofNat 64 n⟩) ∧
    (2 ^ 64 ≤ n → assembleLine (.sizeLine n) = .error .outOfRange ∧
      assembleLine (.encodeLine n) = .error .outOfRange) ∧
    assembleLine .decodeLine = .ok ⟨0b11, 0⟩

/-! ### Invariants and isolation -/

/-- The state after reset meets the invariant, whatever commands, streams and moves its environment has. It rests on the
values of LEN, PAY and EXTRA that the model chooses for reset (DESIGN CHOICE, log 5). -/
def Obligations.InvariantHoldsAtReset : Prop :=
  State.reset.Inv ∧
  ∀ env : Env, env.taken = [] → env.requests = [] → ({ State.reset with env := env } : State).Inv

/-- Every step from a state in the invariant, by any row of R25 and any move of the environment, leads to a state in it. At a
reset it rests on the values the model chooses for LEN, PAY and EXTRA (DESIGN CHOICE, log 5), and after an error on their
free values lying in the ranges of R23 (log 6). -/
def Obligations.EveryStepKeepsTheInvariant : Prop :=
  ∀ s t : State, s.Inv → step s = .next t → t.Inv

/-- A state in the invariant never stops with a fault: the model's two faults are out of reach (log 15). -/
def Obligations.NoFaultInTheInvariant : Prop :=
  ∀ (s : State) (r : Fault), s.Inv → step s ≠ .fault r

/-- R35: a step of one instance leaves every other instance as it is, and the steps of two instances give the same system in
either order. -/
def Obligations.InstancesAreIndependent : Prop :=
  (∀ (sys sys' : System) (k : Nat), System.stepAt k sys = .next sys' → ∀ j, j ≠ k → sys'[j]? = sys[j]?) ∧
  ∀ (sys a b : System) (j k : Nat), j ≠ k → System.stepAt j sys = .next a → System.stepAt k sys = .next b →
    ∃ c, System.stepAt k a = .next c ∧ System.stepAt j b = .next c

/-- R244: a step outside IDLE accepts no command, whatever the move: the caller goes on holding all of them, an offered one
among them, and OP and OPERAND stay, but for a reset. -/
def Obligations.NoStepAcceptsACommandOutsideIdle : Prop :=
  ∀ s t : State, s.seq ≠ .idle → step s = .next t →
    (t.env.cmds = s.env.cmds ∨ ∃ c ms, s.env.moves = .offer c :: ms ∧ t.env.cmds = s.env.cmds ++ [c]) ∧
    ((∀ ms, s.env.moves ≠ .reset :: ms) → t.op = s.op ∧ t.operand = s.operand)

/-- While the sink has not answered, an instance that waits for it stays there (R69 "block for any time", R248). The move of
the agent that is due and a stall answer the same state; after any other move that answers a next state, but a reset, every
latch, the requests and the sink are as before. (The moves connectSink and a late answer to no abandoned request are refused,
log 12.) A sink that has not answered is, in the model, one with no answer listed (log 1), and that it holds the same bytes
until it answers is the model's choice (log 33). -/
def Obligations.AnUnansweredWriteBlocks : Prop :=
  ∀ s : State, s.seq = .awaitWrite → 1 ≤ s.len.toNat → s.len.toNat ≤ 9 → s.env.sinkAnswers = [] →
    (∀ ms, s.due ms → step s = .next (s.withMoves ms)) ∧
    (∀ ms, s.env.moves = .stall :: ms → step s = .next (s.withMoves ms)) ∧
    ∀ t, step s = .next t → (∀ ms, s.env.moves ≠ .reset :: ms) →
      t.seq = s.seq ∧ t.op = s.op ∧ t.operand = s.operand ∧ t.buf = s.buf ∧ t.len = s.len ∧ t.pay = s.pay ∧
        t.extra = s.extra ∧ t.rsp = s.rsp ∧ t.env.requests = s.env.requests ∧ t.env.sink = s.env.sink ∧
        t.env.sinkAnswers = []
end

