-- ==== Sys2Proof/Laws/Operands.lean ====
section
/-! SUPPORT. What the pure functions of the units can answer (spec/40_prefix_analyzer.md R124 to R126, 41_size_calculator.md
R140, 42_encoder.md R164). -/

namespace Sys2Proof.Machine

theorem tz8_le (b : Byte) : tz8 b ≤ 8 := by
  revert b; decide +kernel

/-- The guard of R124 is false for every byte. -/
theorem analyze_eq (b : Byte) : analyze b = .ok (payloadBits b (tz8 b)) (BitVec.ofNat 4 (tz8 b)) := by
  have h := tz8_le b
  simp [analyze, Config.maxExtra, Nat.not_lt.mpr h]

theorem payloadBits_le (b : Byte) : (payloadBits b (tz8 b)).toNat ≤ 127 := by
  revert b; decide +kernel

/-- Everything `analyze` can answer: a count of at most 8 and a payload of at most 127 (R125). -/
theorem analyze_cases (b : Byte) : ∃ p e, analyze b = .ok p e ∧ p.toNat ≤ 127 ∧ e.toNat ≤ 8 := by
  refine ⟨_, _, analyze_eq b, ?_, ?_⟩
  · exact payloadBits_le b
  · have h := tz8_le b
    simp only [BitVec.toNat_ofNat]
    omega

/-- The loop of R140: the answer is the least length from `t` on that can hold the value, or the length past the last. -/
theorem sizeFrom_spec (v : U64) (fuel t : Nat) :
    t ≤ sizeFrom v t fuel ∧ sizeFrom v t fuel ≤ t + fuel ∧
    (sizeFrom v t fuel < t + fuel → v.toNat < 2 ^ (7 * sizeFrom v t fuel)) ∧
    ∀ k, t ≤ k → k < sizeFrom v t fuel → 2 ^ (7 * k) ≤ v.toNat := by
  induction fuel generalizing t with
  | zero => refine ⟨Nat.le_refl _, Nat.le_refl _, ?_, ?_⟩ <;> simp only [sizeFrom] <;> omega
  | succ fuel ih =>
    simp only [sizeFrom]
    split
    · rename_i h
      exact ⟨Nat.le_refl _, by omega, fun _ => h, fun k h1 h2 => by omega⟩
    · rename_i h
      obtain ⟨h1, h2, h3, h4⟩ := ih (t + 1)
      refine ⟨by omega, by omega, fun hlt => h3 (by omega), fun k hk hlt => ?_⟩
      rcases Nat.lt_or_eq_of_le hk with hk | rfl
      · exact h4 k hk hlt
      · omega

theorem size_pos (v : U64) : 1 ≤ size v := (sizeFrom_spec v 8 1).1

theorem size_le (v : U64) : size v ≤ 9 := (sizeFrom_spec v 8 1).2.1

@[simp] theorem lowBytes_length (r : U64) (n : Nat) : (lowBytes r n).length = n := by
  induction n generalizing r with
  | zero => rfl
  | succ n ih => simp [lowBytes, ih]

/-- Byte `i` of the loop of R164 is the remainder shifted right by `8i`, cut to 8 bits. -/
theorem lowBytes_getElem (r : U64) (n i : Nat) (h : i < n) :
    (lowBytes r n)[i]'(by simpa using h) = BitVec.ofNat 8 (r.toNat >>> (8 * i)) := by
  induction n generalizing r i with
  | zero => omega
  | succ n ih =>
    cases i with
    | zero => exact BitVec.eq_of_toNat_eq (by simp [lowBytes])
    | succ i =>
      simp only [lowBytes, List.getElem_cons_succ]
      rw [ih _ _ (by omega), BitVec.toNat_ushiftRight, ← Nat.shiftRight_add]
      congr 2
      omega

/-- The bytes of ENCODE are as many as SIZE says. -/
@[simp] theorem encodeBytes_length (v : U64) : (encodeBytes v).length = size v := by
  have h := size_pos v
  unfold encodeBytes
  simp only
  split
  · rename_i h9; simp [h9]
  · simp; omega

end Sys2Proof.Machine
end

