-- ==== Sys2Proof/Laws/State.lean ====
section
/-! SUPPORT. What every update of the state does to every field: one lemma per field per update. -/

namespace Sys2Proof.Machine

/-! ### accept -/

@[simp] theorem accept_seq (op : BitVec 2) (operand : U64) (s : State) : (accept op operand s).seq = s.seq := rfl
@[simp] theorem accept_op (op : BitVec 2) (operand : U64) (s : State) : (accept op operand s).op = op := rfl
@[simp] theorem accept_operand (op : BitVec 2) (operand : U64) (s : State) :
    (accept op operand s).operand = operand := rfl
@[simp] theorem accept_buf (op : BitVec 2) (operand : U64) (s : State) : (accept op operand s).buf = s.buf := rfl
@[simp] theorem accept_len (op : BitVec 2) (operand : U64) (s : State) : (accept op operand s).len = s.len := rfl
@[simp] theorem accept_pay (op : BitVec 2) (operand : U64) (s : State) : (accept op operand s).pay = s.pay := rfl
@[simp] theorem accept_extra (op : BitVec 2) (operand : U64) (s : State) : (accept op operand s).extra = s.extra := rfl
@[simp] theorem accept_rsp (op : BitVec 2) (operand : U64) (s : State) : (accept op operand s).rsp = s.rsp := rfl
@[simp] theorem accept_env (op : BitVec 2) (operand : U64) (s : State) : (accept op operand s).env = s.env := rfl
@[simp] theorem accept_freeIx (op : BitVec 2) (operand : U64) (s : State) :
    (accept op operand s).freeIx = s.freeIx := rfl

/-! ### setBuf0 -/

@[simp] theorem setBuf0_seq (b : Byte) (s : State) : (setBuf0 b s).seq = s.seq := rfl
@[simp] theorem setBuf0_op (b : Byte) (s : State) : (setBuf0 b s).op = s.op := rfl
@[simp] theorem setBuf0_operand (b : Byte) (s : State) : (setBuf0 b s).operand = s.operand := rfl
@[simp] theorem setBuf0_buf (b : Byte) (s : State) : (setBuf0 b s).buf = s.buf.set 0 b := rfl
@[simp] theorem setBuf0_len (b : Byte) (s : State) : (setBuf0 b s).len = s.len := rfl
@[simp] theorem setBuf0_pay (b : Byte) (s : State) : (setBuf0 b s).pay = s.pay := rfl
@[simp] theorem setBuf0_extra (b : Byte) (s : State) : (setBuf0 b s).extra = s.extra := rfl
@[simp] theorem setBuf0_rsp (b : Byte) (s : State) : (setBuf0 b s).rsp = s.rsp := rfl
@[simp] theorem setBuf0_env (b : Byte) (s : State) : (setBuf0 b s).env = s.env := rfl
@[simp] theorem setBuf0_freeIx (b : Byte) (s : State) : (setBuf0 b s).freeIx = s.freeIx := rfl

/-! ### setAnalysis -/

@[simp] theorem setAnalysis_seq (payload : U64) (extra : BitVec 4) (s : State) :
    (setAnalysis payload extra s).seq = s.seq := rfl
@[simp] theorem setAnalysis_op (payload : U64) (extra : BitVec 4) (s : State) :
    (setAnalysis payload extra s).op = s.op := rfl
@[simp] theorem setAnalysis_operand (payload : U64) (extra : BitVec 4) (s : State) :
    (setAnalysis payload extra s).operand = s.operand := rfl
@[simp] theorem setAnalysis_buf (payload : U64) (extra : BitVec 4) (s : State) :
    (setAnalysis payload extra s).buf = s.buf := rfl
@[simp] theorem setAnalysis_len (payload : U64) (extra : BitVec 4) (s : State) :
    (setAnalysis payload extra s).len = s.len := rfl
@[simp] theorem setAnalysis_pay (payload : U64) (extra : BitVec 4) (s : State) :
    (setAnalysis payload extra s).pay = payload := rfl
@[simp] theorem setAnalysis_extra (payload : U64) (extra : BitVec 4) (s : State) :
    (setAnalysis payload extra s).extra = extra := rfl
@[simp] theorem setAnalysis_rsp (payload : U64) (extra : BitVec 4) (s : State) :
    (setAnalysis payload extra s).rsp = s.rsp := rfl
@[simp] theorem setAnalysis_env (payload : U64) (extra : BitVec 4) (s : State) :
    (setAnalysis payload extra s).env = s.env := rfl
@[simp] theorem setAnalysis_freeIx (payload : U64) (extra : BitVec 4) (s : State) :
    (setAnalysis payload extra s).freeIx = s.freeIx := rfl

/-! ### fillBuf -/

@[simp] theorem fillBuf_seq (bytes : List Byte) (s : State) : (fillBuf bytes s).seq = s.seq := rfl
@[simp] theorem fillBuf_op (bytes : List Byte) (s : State) : (fillBuf bytes s).op = s.op := rfl
@[simp] theorem fillBuf_operand (bytes : List Byte) (s : State) : (fillBuf bytes s).operand = s.operand := rfl
@[simp] theorem fillBuf_buf (bytes : List Byte) (s : State) :
    (fillBuf bytes s).buf = bufOf bytes (Config.freeBuf s.freeIx) := rfl
@[simp] theorem fillBuf_len (bytes : List Byte) (s : State) : (fillBuf bytes s).len = BitVec.ofNat 4 bytes.length := rfl
@[simp] theorem fillBuf_pay (bytes : List Byte) (s : State) : (fillBuf bytes s).pay = s.pay := rfl
@[simp] theorem fillBuf_extra (bytes : List Byte) (s : State) : (fillBuf bytes s).extra = s.extra := rfl
@[simp] theorem fillBuf_rsp (bytes : List Byte) (s : State) : (fillBuf bytes s).rsp = s.rsp := rfl
@[simp] theorem fillBuf_env (bytes : List Byte) (s : State) : (fillBuf bytes s).env = s.env := rfl
@[simp] theorem fillBuf_freeIx (bytes : List Byte) (s : State) : (fillBuf bytes s).freeIx = s.freeIx + 1 := rfl

/-! ### respond -/

@[simp] theorem respond_seq (r : Response) (s : State) : (respond r s).seq = Seq.done := rfl
@[simp] theorem respond_op (r : Response) (s : State) : (respond r s).op = s.op := rfl
@[simp] theorem respond_operand (r : Response) (s : State) : (respond r s).operand = s.operand := rfl
@[simp] theorem respond_buf (r : Response) (s : State) : (respond r s).buf = s.buf := rfl
@[simp] theorem respond_len (r : Response) (s : State) : (respond r s).len = s.len := rfl
@[simp] theorem respond_pay (r : Response) (s : State) : (respond r s).pay = s.pay := rfl
@[simp] theorem respond_extra (r : Response) (s : State) : (respond r s).extra = s.extra := rfl
@[simp] theorem respond_rsp (r : Response) (s : State) : (respond r s).rsp = some r := rfl
@[simp] theorem respond_env (r : Response) (s : State) : (respond r s).env = s.env := rfl
@[simp] theorem respond_freeIx (r : Response) (s : State) : (respond r s).freeIx = s.freeIx := rfl

/-! ### dropLatches -/

@[simp] theorem dropLatches_seq (s : State) : (dropLatches s).seq = s.seq := rfl
@[simp] theorem dropLatches_op (s : State) : (dropLatches s).op = s.op := rfl
@[simp] theorem dropLatches_operand (s : State) : (dropLatches s).operand = s.operand := rfl
@[simp] theorem dropLatches_buf (s : State) : (dropLatches s).buf = Config.freeBuf s.freeIx := rfl
@[simp] theorem dropLatches_len (s : State) : (dropLatches s).len = BitVec.ofNat 4 (Config.freeLen s.freeIx).val := rfl
@[simp] theorem dropLatches_pay (s : State) : (dropLatches s).pay = (Config.freePay s.freeIx).setWidth 64 := rfl
@[simp] theorem dropLatches_extra (s : State) :
    (dropLatches s).extra = BitVec.ofNat 4 (Config.freeExtra s.freeIx).val := rfl
@[simp] theorem dropLatches_rsp (s : State) : (dropLatches s).rsp = s.rsp := rfl
@[simp] theorem dropLatches_env (s : State) : (dropLatches s).env = s.env := rfl
@[simp] theorem dropLatches_freeIx (s : State) : (dropLatches s).freeIx = s.freeIx + 1 := rfl

/-! ### raise -/

@[simp] theorem raise_seq (err : CoreError) (s : State) : (raise err s).seq = Seq.done := rfl
@[simp] theorem raise_op (err : CoreError) (s : State) : (raise err s).op = s.op := rfl
@[simp] theorem raise_operand (err : CoreError) (s : State) : (raise err s).operand = s.operand := rfl
@[simp] theorem raise_buf (err : CoreError) (s : State) : (raise err s).buf = Config.freeBuf s.freeIx := rfl
@[simp] theorem raise_len (err : CoreError) (s : State) :
    (raise err s).len = BitVec.ofNat 4 (Config.freeLen s.freeIx).val := rfl
@[simp] theorem raise_pay (err : CoreError) (s : State) :
    (raise err s).pay = (Config.freePay s.freeIx).setWidth 64 := rfl
@[simp] theorem raise_extra (err : CoreError) (s : State) :
    (raise err s).extra = BitVec.ofNat 4 (Config.freeExtra s.freeIx).val := rfl
@[simp] theorem raise_rsp (err : CoreError) (s : State) : (raise err s).rsp = some err.response := rfl
@[simp] theorem raise_env (err : CoreError) (s : State) : (raise err s).env = s.env := rfl
@[simp] theorem raise_freeIx (err : CoreError) (s : State) : (raise err s).freeIx = s.freeIx + 1 := rfl

/-! ### issue -/

@[simp] theorem issue_seq (r : Request) (q : Seq) (s : State) : (issue r q s).seq = q := rfl
@[simp] theorem issue_op (r : Request) (q : Seq) (s : State) : (issue r q s).op = s.op := rfl
@[simp] theorem issue_operand (r : Request) (q : Seq) (s : State) : (issue r q s).operand = s.operand := rfl
@[simp] theorem issue_buf (r : Request) (q : Seq) (s : State) : (issue r q s).buf = s.buf := rfl
@[simp] theorem issue_len (r : Request) (q : Seq) (s : State) : (issue r q s).len = s.len := rfl
@[simp] theorem issue_pay (r : Request) (q : Seq) (s : State) : (issue r q s).pay = s.pay := rfl
@[simp] theorem issue_extra (r : Request) (q : Seq) (s : State) : (issue r q s).extra = s.extra := rfl
@[simp] theorem issue_rsp (r : Request) (q : Seq) (s : State) : (issue r q s).rsp = s.rsp := rfl
@[simp] theorem issue_env (r : Request) (q : Seq) (s : State) :
    (issue r q s).env = ({ s.env with requests := s.env.requests ++ [r] } : Env) := rfl
@[simp] theorem issue_freeIx (r : Request) (q : Seq) (s : State) : (issue r q s).freeIx = s.freeIx := rfl

/-! ### setSource -/

@[simp] theorem setSource_seq (items : List SrcItem) (s : State) : (setSource items s).seq = s.seq := rfl
@[simp] theorem setSource_op (items : List SrcItem) (s : State) : (setSource items s).op = s.op := rfl
@[simp] theorem setSource_operand (items : List SrcItem) (s : State) : (setSource items s).operand = s.operand := rfl
@[simp] theorem setSource_buf (items : List SrcItem) (s : State) : (setSource items s).buf = s.buf := rfl
@[simp] theorem setSource_len (items : List SrcItem) (s : State) : (setSource items s).len = s.len := rfl
@[simp] theorem setSource_pay (items : List SrcItem) (s : State) : (setSource items s).pay = s.pay := rfl
@[simp] theorem setSource_extra (items : List SrcItem) (s : State) : (setSource items s).extra = s.extra := rfl
@[simp] theorem setSource_rsp (items : List SrcItem) (s : State) : (setSource items s).rsp = s.rsp := rfl
@[simp] theorem setSource_env (items : List SrcItem) (s : State) :
    (setSource items s).env = ({ s.env with source := items } : Env) := rfl
@[simp] theorem setSource_freeIx (items : List SrcItem) (s : State) : (setSource items s).freeIx = s.freeIx := rfl

/-! ### setSink -/

@[simp] theorem setSink_seq (contents : List Byte) (answers : List SinkAnswer) (s : State) :
    (setSink contents answers s).seq = s.seq := rfl
@[simp] theorem setSink_op (contents : List Byte) (answers : List SinkAnswer) (s : State) :
    (setSink contents answers s).op = s.op := rfl
@[simp] theorem setSink_operand (contents : List Byte) (answers : List SinkAnswer) (s : State) :
    (setSink contents answers s).operand = s.operand := rfl
@[simp] theorem setSink_buf (contents : List Byte) (answers : List SinkAnswer) (s : State) :
    (setSink contents answers s).buf = s.buf := rfl
@[simp] theorem setSink_len (contents : List Byte) (answers : List SinkAnswer) (s : State) :
    (setSink contents answers s).len = s.len := rfl
@[simp] theorem setSink_pay (contents : List Byte) (answers : List SinkAnswer) (s : State) :
    (setSink contents answers s).pay = s.pay := rfl
@[simp] theorem setSink_extra (contents : List Byte) (answers : List SinkAnswer) (s : State) :
    (setSink contents answers s).extra = s.extra := rfl
@[simp] theorem setSink_rsp (contents : List Byte) (answers : List SinkAnswer) (s : State) :
    (setSink contents answers s).rsp = s.rsp := rfl
@[simp] theorem setSink_env (contents : List Byte) (answers : List SinkAnswer) (s : State) :
    (setSink contents answers s).env = ({ s.env with sink := contents, sinkAnswers := answers } : Env) := rfl
@[simp] theorem setSink_freeIx (contents : List Byte) (answers : List SinkAnswer) (s : State) :
    (setSink contents answers s).freeIx = s.freeIx := rfl

/-! ### offer -/

@[simp] theorem offer_seq (c : Command) (s : State) : (offer c s).seq = s.seq := rfl
@[simp] theorem offer_op (c : Command) (s : State) : (offer c s).op = s.op := rfl
@[simp] theorem offer_operand (c : Command) (s : State) : (offer c s).operand = s.operand := rfl
@[simp] theorem offer_buf (c : Command) (s : State) : (offer c s).buf = s.buf := rfl
@[simp] theorem offer_len (c : Command) (s : State) : (offer c s).len = s.len := rfl
@[simp] theorem offer_pay (c : Command) (s : State) : (offer c s).pay = s.pay := rfl
@[simp] theorem offer_extra (c : Command) (s : State) : (offer c s).extra = s.extra := rfl
@[simp] theorem offer_rsp (c : Command) (s : State) : (offer c s).rsp = s.rsp := rfl
@[simp] theorem offer_env (c : Command) (s : State) :
    (offer c s).env = ({ s.env with cmds := s.env.cmds ++ [c] } : Env) := rfl
@[simp] theorem offer_freeIx (c : Command) (s : State) : (offer c s).freeIx = s.freeIx := rfl

/-! ### applyReset -/

@[simp] theorem applyReset_seq (s : State) : (applyReset s).seq = Seq.idle := rfl
@[simp] theorem applyReset_op (s : State) : (applyReset s).op = 0 := rfl
@[simp] theorem applyReset_operand (s : State) : (applyReset s).operand = 0 := rfl
@[simp] theorem applyReset_buf (s : State) : (applyReset s).buf = Vector.replicate 9 0 := rfl
@[simp] theorem applyReset_len (s : State) : (applyReset s).len = 0 := rfl
@[simp] theorem applyReset_pay (s : State) : (applyReset s).pay = 0 := rfl
@[simp] theorem applyReset_extra (s : State) : (applyReset s).extra = 0 := rfl
@[simp] theorem applyReset_rsp (s : State) : (applyReset s).rsp = none := rfl
@[simp] theorem applyReset_env (s : State) : (applyReset s).env = abandonRequest s := rfl
@[simp] theorem applyReset_freeIx (s : State) : (applyReset s).freeIx = s.freeIx + 1 := rfl

end Sys2Proof.Machine
end

