-- ==== Sys2Proof/Laws/Ops.lean ====
section
/-! SUPPORT. For each shared operation, one lemma that says everything it can do. -/

namespace Sys2Proof.Machine

/-! ### BUF -/

theorem bufOf_getElem (bytes : List Byte) (rest : Vector Byte 9) (i : Nat) (h : i < 9) :
    (bufOf bytes rest)[i] = bytes.getD i rest[i] := by
  simp [bufOf]

/-- The first n bytes of a BUF filled with n bytes are those. -/
theorem bufOf_take (bytes : List Byte) (rest : Vector Byte 9) (h : bytes.length ≤ 9) :
    (bufOf bytes rest).toList.take bytes.length = bytes := by
  apply List.ext_getElem
  · simp; omega
  · intro i h1 h2
    have h3 : i < bytes.length := h2
    simp [List.getElem_take, bufOf, h3]

theorem toNat_ofNat_length (n : Nat) (h : n ≤ 9) : (BitVec.ofNat 4 n).toNat = n := by
  simp only [BitVec.toNat_ofNat]
  omega

/-- After `fillBuf` the meaningful bytes of BUF are the bytes written (R27). -/
theorem fillBuf_bufBytes (bytes : List Byte) (s : State) (h : bytes.length ≤ 9) :
    (fillBuf bytes s).bufBytes = bytes := by
  simp only [State.bufBytes, fillBuf_len, fillBuf_buf, toNat_ofNat_length _ h, bufOf_take _ _ h]

/-! ### Acceptance and commands -/

theorem whenIdle_idle {s : State} (act : State → Result) (h : s.seq = .idle) : whenIdle s act = act s := by
  simp [whenIdle, h]

theorem whenIdle_busy {s : State} (act : State → Result) (h : s.seq ≠ .idle) : whenIdle s act = .next s := by
  simp [whenIdle, h]

/-- A prefix operation always ends with Ok: the guard does not fire (R124, R214). -/
theorem runPrefix_eq (s : State) :
    runPrefix s = respond (.ok (payloadBits (prefixOperand s.operand) (tz8 (prefixOperand s.operand)))
      (some (BitVec.ofNat 4 (tz8 (prefixOperand s.operand))))) s := by
  simp only [runPrefix, analyze_eq]

/-- `runEncode` once over: BUF, LEN, the request, and the free values drawn for the rest of BUF. -/
theorem runEncode_eq (s : State) :
    runEncode s = issue (.writeAll (encodeBytes s.operand)) .awaitWrite (fillBuf (encodeBytes s.operand) s) := by
  have h : (encodeBytes s.operand).length ≤ 9 := by rw [encodeBytes_length]; exact size_le _
  simp only [runEncode, fillBuf_bufBytes _ _ h]

theorem runEncode_bufBytes (s : State) : (runEncode s).bufBytes = encodeBytes s.operand := by
  have h : (encodeBytes s.operand).length ≤ 9 := by rw [encodeBytes_length]; exact size_le _
  rw [runEncode_eq]
  exact fillBuf_bufBytes _ s h

theorem runEncode_len (s : State) : (runEncode s).len.toNat = size s.operand := by
  rw [runEncode_eq]
  simp only [issue_len, fillBuf_len, encodeBytes_length]
  exact toNat_ofNat_length _ (size_le _)

/-! ### The source -/

/-- Everything a read can be answered with: exactly the bytes asked for, from the head of the stream; or the failure that
stands among them; or nothing, because fewer have arrived (R55). -/
theorem readExact_cases (n : Nat) (items : List SrcItem) :
    (∃ bytes rest, readExact n items = .ok bytes rest ∧ bytes.length = n ∧ items = bytes.map .byte ++ rest) ∨
    (∃ (bytes : List Byte) (e : IoErr) (rest : List SrcItem), readExact n items = .err e ∧ bytes.length < n ∧ items = bytes.map .byte ++ .fail e :: rest) ∨
    (∃ bytes : List Byte, readExact n items = .blocked ∧ bytes.length < n ∧ items = bytes.map .byte) := by
  induction n generalizing items with
  | zero => exact .inl ⟨[], items, rfl, rfl, rfl⟩
  | succ n ih =>
    match items with
    | [] => exact .inr (.inr ⟨[], rfl, Nat.succ_pos _, rfl⟩)
    | .fail e :: rest => exact .inr (.inl ⟨[], e, rest, rfl, Nat.succ_pos _, rfl⟩)
    | .byte b :: items =>
      rcases ih items with ⟨bs, rest, h, hl, hi⟩ | ⟨bs, e, rest, h, hl, hi⟩ | ⟨bs, h, hl, hi⟩
      · exact .inl ⟨b :: bs, rest, by simp [readExact, h], by simp [hl], by simp [hi]⟩
      · exact .inr (.inl ⟨b :: bs, e, rest, by simp [readExact, h], by simpa using hl, by simp [hi]⟩)
      · exact .inr (.inr ⟨b :: bs, by simp [readExact, h], by simpa using hl, by simp [hi]⟩)

theorem readExact_bytes (bytes : List Byte) (rest : List SrcItem) :
    readExact bytes.length (bytes.map .byte ++ rest) = .ok bytes rest := by
  induction bytes with
  | nil => rfl
  | cons b bs ih => simp [readExact, ih]

theorem readExact_fail (n : Nat) (bytes : List Byte) (e : IoErr) (rest : List SrcItem) (h : bytes.length < n) :
    readExact n (bytes.map .byte ++ .fail e :: rest) = .err e := by
  induction bytes generalizing n with
  | nil => cases n with
    | zero => simp at h
    | succ n => rfl
  | cons b bs ih => cases n with
    | zero => simp at h
    | succ n => simp [readExact, ih n (by simpa using h)]

theorem readExact_short (n : Nat) (bytes : List Byte) (h : bytes.length < n) :
    readExact n (bytes.map .byte) = .blocked := by
  induction bytes generalizing n with
  | nil => cases n with
    | zero => simp at h
    | succ n => rfl
  | cons b bs ih => cases n with
    | zero => simp at h
    | succ n => simp [readExact, ih n (by simpa using h)]

/-! ### The decoder's steps -/

/-- A delivered prefix byte, once over: with no trailing zero the operation ends; otherwise one read is issued (R183). -/
theorem takePrefix_eq {s : State} (b : Byte) (h : s.seq = .awaitPrefix) :
    takePrefix b s = .next (afterAnalysis b (.ok (payloadBits b (tz8 b)) (BitVec.ofNat 4 (tz8 b))) (setBuf0 b s)) := by
  simp [takePrefix, h, analyze_eq]

theorem takePrefix_refused {s : State} (b : Byte) (h : s.seq ≠ .awaitPrefix) :
    takePrefix b s = .refused .unrequestedAnswer := by
  simp [takePrefix, h]

/-- The answer to the extra-bytes read, once over (R185). -/
theorem takeExtra_eq (bytes : List Byte) (s : State) (h : bytes.length ≤ 8) :
    takeExtra bytes s =
      respond (.ok (fold s.pay s.extra.toNat bytes) none) (fillBuf (s.buf[0] :: bytes) s) := by
  have h' : (s.buf[0] :: bytes).length ≤ 9 := Nat.succ_le_succ h
  simp only [takeExtra, fillBuf_pay, fillBuf_extra, fillBuf_bufBytes _ _ h', List.drop_one, List.tail_cons]

/-- Everything AWAIT_EXTRA can answer next. -/
theorem awaitExtra_cases {s t : State} (h : awaitExtra s = .next t) :
    1 ≤ s.extra.toNat ∧ s.extra.toNat ≤ 8 ∧
    (t = s ∨
      (∃ bytes rest, bytes.length = s.extra.toNat ∧ s.env.source = bytes.map .byte ++ rest ∧
        t = takeExtra bytes (setSource rest s)) ∨
      ∃ e, t = failRead e s) := by
  unfold awaitExtra at h
  split at h
  · rename_i hb
    refine ⟨hb.1, hb.2, ?_⟩
    rcases readExact_cases s.extra.toNat s.env.source with ⟨bs, rest, hr, hl, hi⟩ | ⟨bs, e, rest, hr, -, -⟩ | ⟨bs, hr, -, -⟩
    · rw [hr] at h; injection h with h; exact .inr (.inl ⟨bs, rest, hl, hi, h.symm⟩)
    · rw [hr] at h; injection h with h; exact .inr (.inr ⟨e, h.symm⟩)
    · rw [hr] at h; injection h with h; exact .inl h.symm
  · cases h

/-- Everything AWAIT_WRITE can answer next. -/
theorem awaitWrite_cases {s t : State} (h : awaitWrite s = .next t) :
    1 ≤ s.len.toNat ∧ s.len.toNat ≤ 9 ∧
    (t = s ∨
      (∃ answers, t = respond (.ok (s.len.setWidth 64) none) (setSink (s.env.sink ++ s.bufBytes) answers s)) ∨
      ∃ e answers, t = failWrite e answers s) := by
  unfold awaitWrite at h
  split at h
  · rename_i hb
    refine ⟨hb.1, hb.2, ?_⟩
    split at h <;> injection h with h
    · exact .inl h.symm
    · exact .inr (.inl ⟨_, h.symm⟩)
    · exact .inr (.inr ⟨_, _, h.symm⟩)
  · cases h

/-- Everything that taking the response can answer next. -/
theorem takeResponse_cases {s t : State} (h : takeResponse s = .next t) :
    ∃ r, s.rsp = some r ∧ t = { s with seq := .idle, env := { s.env with taken := s.env.taken ++ [r] } } := by
  unfold takeResponse at h
  split at h
  · rename_i r hr; injection h with h; exact ⟨r, hr, h.symm⟩
  · cases h

end Sys2Proof.Machine
end

