-- ==== Sys2Proof/Laws/PerInstr.lean ====
section
/-! SUPPORT. Statements about every instruction as syntax, one lemma for each constructor. -/

namespace Sys2Proof

/-- A command's word is one the 66 bits of the command port can carry (R89). -/
theorem command_toWord_fits (c : Command) : Port.command.wordWellFormed c.toWord = true := by
  have h1 := c.operand.isLt
  have h2 := c.op.isLt
  have h : c.toWord < 2 ^ 66 := by
    simp only [Command.toWord]
    omega
  exact decide_eq_true h

/-- A byte is a word that the source can carry (R52). -/
theorem byte_fits (b : Byte) : Port.source.wordWellFormed b.toNat = true :=
  decide_eq_true b.isLt

end Sys2Proof

namespace Sys2Proof.Laws.EncodeFits

/-- The word of an instruction is one that its port can carry. -/
def Statement (i : Instr) : Prop :=
  (encode i).1.wordWellFormed (encode i).2 = true

theorem prefixOp (operand : U64) : Statement (.prefixOp operand) := command_toWord_fits _
theorem size (operand : U64) : Statement (.size operand) := command_toWord_fits _
theorem encode (operand : U64) : Statement (.encode operand) := command_toWord_fits _
theorem decode (operand : U64) : Statement (.decode operand) := command_toWord_fits _
theorem prefixClassT1 (p : BitVec 7) : Statement (.prefixClassT1 p) := byte_fits _
theorem prefixClassT2 (p : BitVec 6) : Statement (.prefixClassT2 p) := byte_fits _
theorem prefixClassT3 (p : BitVec 5) : Statement (.prefixClassT3 p) := byte_fits _
theorem prefixClassT4 (p : BitVec 4) : Statement (.prefixClassT4 p) := byte_fits _
theorem prefixClassT5 (p : BitVec 3) : Statement (.prefixClassT5 p) := byte_fits _
theorem prefixClassT6 (p : BitVec 2) : Statement (.prefixClassT6 p) := byte_fits _
theorem prefixClassT7 (p : BitVec 1) : Statement (.prefixClassT7 p) := byte_fits _
theorem prefixClassT8 : Statement .prefixClassT8 := byte_fits _
theorem prefixClassT9 : Statement .prefixClassT9 := byte_fits 0

end Sys2Proof.Laws.EncodeFits
end

