-- ==== Sys2Proof/Laws/Step.lean ====
section
/-! SUPPORT. What one step can do: an equation for each row of spec/10_state.md R25 and each move of the environment, and one
inversion lemma over all of them. -/

namespace Sys2Proof.Machine

/-! ### Commands -/

/-- What the acceptance of a command does: the IDLE row of R25. -/
def acceptedBy (c : Command) (s : State) : State :=
  if c.op = 0b00 then runPrefix (accept c.op c.operand s)
  else if c.op = 0b01 then runSize (accept c.op c.operand s)
  else if c.op = 0b10 then runEncode (accept c.op c.operand s)
  else runDecode (accept c.op c.operand s)

theorem op_cases (op : BitVec 2) : op = 0b00 ∨ op = 0b01 ∨ op = 0b10 ∨ op = 0b11 := by
  revert op; decide

/-- A decoded command, run in IDLE, is accepted and does its operation's first step. -/
theorem exec_decodeCommand (c : Command) {s : State} (h : s.seq = .idle) :
    exec (decodeCommand c) s = .next (acceptedBy c s) := by
  obtain ⟨op, x⟩ := c
  rcases op_cases op with rfl | rfl | rfl | rfl <;>
    simp [decodeCommand, acceptedBy, exec, execPrefix, execSize, execEncode, execDecode, whenIdle_idle _ h]

/-- The four cases of an accepted command. -/
theorem acceptedBy_cases (c : Command) (s : State) :
    (c.op = 0b00 ∧ acceptedBy c s = runPrefix (accept 0b00 c.operand s)) ∨
    (c.op = 0b01 ∧ acceptedBy c s = runSize (accept 0b01 c.operand s)) ∨
    (c.op = 0b10 ∧ acceptedBy c s = runEncode (accept 0b10 c.operand s)) ∨
    (c.op = 0b11 ∧ acceptedBy c s = runDecode (accept 0b11 c.operand s)) := by
  obtain ⟨op, x⟩ := c
  rcases op_cases op with rfl | rfl | rfl | rfl <;> simp [acceptedBy]

/-! ### Prefix bytes -/

/-- The nine classes of R83 lose nothing: encoding the class of a byte gives the byte. -/
theorem encode_decodePrefixByte (b : Byte) : encode (decodePrefixByte b) = (.source, b.toNat) := by
  revert b; decide +kernel

/-- An instruction of the source port, run at a state, is its byte delivered there. -/
theorem exec_source (i : Instr) (s : State) (h : (encode i).1 = .source) :
    exec i s = takePrefix (BitVec.ofNat 8 (encode i).2) s := by
  cases i <;> first
    | (cases h; done)
    | simp [exec, encode, execPrefixClassT1, execPrefixClassT2, execPrefixClassT3, execPrefixClassT4, execPrefixClassT5,
        execPrefixClassT6, execPrefixClassT7, execPrefixClassT8, execPrefixClassT9]

/-- The decoded class of a byte, run at a state, is the byte delivered there. -/
theorem exec_decodePrefixByte (b : Byte) (s : State) : exec (decodePrefixByte b) s = takePrefix b s := by
  have h := encode_decodePrefixByte b
  rw [exec_source _ _ (by rw [h]), h]
  simp

/-! ### Moves -/

@[simp] theorem withMoves_seq (s : State) (ms : List Move) : (s.withMoves ms).seq = s.seq := rfl
@[simp] theorem withMoves_op (s : State) (ms : List Move) : (s.withMoves ms).op = s.op := rfl
@[simp] theorem withMoves_operand (s : State) (ms : List Move) : (s.withMoves ms).operand = s.operand := rfl
@[simp] theorem withMoves_buf (s : State) (ms : List Move) : (s.withMoves ms).buf = s.buf := rfl
@[simp] theorem withMoves_len (s : State) (ms : List Move) : (s.withMoves ms).len = s.len := rfl
@[simp] theorem withMoves_pay (s : State) (ms : List Move) : (s.withMoves ms).pay = s.pay := rfl
@[simp] theorem withMoves_extra (s : State) (ms : List Move) : (s.withMoves ms).extra = s.extra := rfl
@[simp] theorem withMoves_rsp (s : State) (ms : List Move) : (s.withMoves ms).rsp = s.rsp := rfl
@[simp] theorem withMoves_env (s : State) (ms : List Move) :
    (s.withMoves ms).env = ({ s.env with moves := ms } : Env) := rfl
@[simp] theorem withMoves_freeIx (s : State) (ms : List Move) : (s.withMoves ms).freeIx = s.freeIx := rfl

theorem nextMove_due {s : State} {ms : List Move} (h : s.due ms) : nextMove s = (.go, s.withMoves ms) := by
  rcases h with h | ⟨h, rfl⟩
  · simp [nextMove, h, State.withMoves]
  · simp only [nextMove, h, State.withMoves]
    rw [← h]

theorem nextMove_cons {s : State} {m : Move} {ms : List Move} (h : s.env.moves = m :: ms) :
    nextMove s = (m, s.withMoves ms) := by
  simp [nextMove, h, State.withMoves]

/-- The outcome of an event. -/
def Event.result : Event → Result
  | .run i t => exec i t
  | .outcome r => r

theorem step_eq (s : State) : step s = (nextEvent s).result := by
  unfold step Event.result
  split <;> simp_all

/-- A step whose move is `go` is the event due in the phase. -/
theorem step_due {s : State} {ms : List Move} (h : s.due ms) : step s = (dueEvent (s.withMoves ms)).result := by
  simp only [step_eq, nextEvent, nextMove_due h, moveEvent]

/-- A step with another move on the list is that move. -/
theorem step_move {s : State} {m : Move} {ms : List Move} (h : s.env.moves = m :: ms) :
    step s = (moveEvent m (s.withMoves ms)).result := by
  simp only [step_eq, nextEvent, nextMove_cons h]

theorem dueEvent_command {s : State} {c : Command} {cs : List Command} (hq : s.seq = .idle) (hc : s.env.cmds = c :: cs) :
    (dueEvent s).result = .next (acceptedBy c { s with env := { s.env with cmds := cs } }) := by
  have h : (dueEvent s).result = exec (decodeCommand c) { s with env := { s.env with cmds := cs } } := by
    unfold dueEvent
    split <;> simp_all [fetchCommand, Event.result]
  rw [h]
  exact exec_decodeCommand c hq

theorem dueEvent_noCommand {s : State} (hq : s.seq = .idle) (hc : s.env.cmds = []) :
    (dueEvent s).result = .next s := by
  simp only [dueEvent, hq, fetchCommand, hc, Event.result]

theorem dueEvent_prefixByte {s : State} {b : Byte} {rest : List SrcItem} (hq : s.seq = .awaitPrefix)
    (hs : s.env.source = .byte b :: rest) : (dueEvent s).result = takePrefix b (setSource rest s) := by
  simp only [dueEvent, hq, fetchPrefixByte, hs, readExact, Event.result, List.headD_cons]
  exact exec_decodePrefixByte b _

theorem dueEvent_prefixError {s : State} {e : IoErr} {rest : List SrcItem} (hq : s.seq = .awaitPrefix)
    (hs : s.env.source = .fail e :: rest) : (dueEvent s).result = .next (failRead e s) := by
  simp only [dueEvent, hq, fetchPrefixByte, hs, readExact, Event.result]

theorem dueEvent_prefixBlocked {s : State} (hq : s.seq = .awaitPrefix) (hs : s.env.source = []) :
    (dueEvent s).result = .next s := by
  simp only [dueEvent, hq, fetchPrefixByte, hs, readExact, Event.result]

theorem dueEvent_awaitExtra {s : State} (hq : s.seq = .awaitExtra) : (dueEvent s).result = awaitExtra s := by
  simp only [dueEvent, hq, Event.result]

theorem dueEvent_awaitWrite {s : State} (hq : s.seq = .awaitWrite) : (dueEvent s).result = awaitWrite s := by
  simp only [dueEvent, hq, Event.result]

theorem dueEvent_done {s : State} (hq : s.seq = .done) : (dueEvent s).result = takeResponse s := by
  simp only [dueEvent, hq, Event.result]

/-! ### Inversion -/

/-- Everything that the event due in a phase can lead to: the rows of R25. -/
inductive DueCase (s : State) : State → Prop where
  | idle (hq : s.seq = .idle) (hc : s.env.cmds = []) : DueCase s s
  | accepted (c : Command) (cs : List Command) (hq : s.seq = .idle) (hc : s.env.cmds = c :: cs) :
      DueCase s (acceptedBy c { s with env := { s.env with cmds := cs } })
  | prefixBlocked (hq : s.seq = .awaitPrefix) : DueCase s s
  | prefixByte (b : Byte) (rest : List SrcItem) (hq : s.seq = .awaitPrefix) (hs : s.env.source = .byte b :: rest) :
      DueCase s (afterAnalysis b (analyze b) (setBuf0 b (setSource rest s)))
  | readFailed (e : IoErr) (hq : s.seq = .awaitPrefix ∨ s.seq = .awaitExtra) : DueCase s (failRead e s)
  | extraBlocked (hq : s.seq = .awaitExtra) : DueCase s s
  | extraBytes (bytes : List Byte) (rest : List SrcItem) (hq : s.seq = .awaitExtra) (h1 : 1 ≤ s.extra.toNat)
      (h8 : s.extra.toNat ≤ 8) (hl : bytes.length = s.extra.toNat) (hs : s.env.source = bytes.map .byte ++ rest) :
      DueCase s (takeExtra bytes (setSource rest s))
  | writeBlocked (hq : s.seq = .awaitWrite) : DueCase s s
  | written (answers : List SinkAnswer) (hq : s.seq = .awaitWrite) (h1 : 1 ≤ s.len.toNat) (h9 : s.len.toNat ≤ 9) :
      DueCase s (respond (.ok (s.len.setWidth 64) none) (setSink (s.env.sink ++ s.bufBytes) answers s))
  | writeFailed (e : IoErr) (answers : List SinkAnswer) (hq : s.seq = .awaitWrite) : DueCase s (failWrite e answers s)
  | taken (r : Response) (hq : s.seq = .done) (hr : s.rsp = some r) :
      DueCase s { s with seq := .idle, env := { s.env with taken := s.env.taken ++ [r] } }

theorem due_cases {s t : State} (h : (dueEvent s).result = .next t) : DueCase s t := by
  cases hq : s.seq with
  | idle =>
    cases hc : s.env.cmds with
    | nil =>
      rw [dueEvent_noCommand hq hc] at h; injection h with h; subst h
      exact .idle hq hc
    | cons c cs =>
      rw [dueEvent_command hq hc] at h; injection h with h; subst h
      exact .accepted c cs hq hc
  | awaitPrefix =>
    match hs : s.env.source with
    | [] => rw [dueEvent_prefixBlocked hq hs] at h; injection h with h; subst h; exact .prefixBlocked hq
    | .fail e :: rest =>
      rw [dueEvent_prefixError hq hs] at h; injection h with h; subst h
      exact .readFailed e (.inl hq)
    | .byte b :: rest =>
      rw [dueEvent_prefixByte hq hs, takePrefix, if_pos (by simpa using hq)] at h; injection h with h; subst h
      exact .prefixByte b rest hq hs
  | awaitExtra =>
    rw [dueEvent_awaitExtra hq] at h
    obtain ⟨h1, h8, rfl | ⟨bytes, rest, hl, hs, rfl⟩ | ⟨e, rfl⟩⟩ := awaitExtra_cases h
    · exact .extraBlocked hq
    · exact .extraBytes bytes rest hq h1 h8 hl hs
    · exact .readFailed e (.inr hq)
  | awaitWrite =>
    rw [dueEvent_awaitWrite hq] at h
    obtain ⟨h1, h9, rfl | ⟨answers, rfl⟩ | ⟨e, answers, rfl⟩⟩ := awaitWrite_cases h
    · exact .writeBlocked hq
    · exact .written answers hq h1 h9
    · exact .writeFailed e answers hq
  | done =>
    rw [dueEvent_done hq] at h
    obtain ⟨r, hr, rfl⟩ := takeResponse_cases h
    exact .taken r hq hr

/-- Everything that a step can lead to: a row of R25, or a move of the environment. -/
inductive StepCase (s : State) : State → Prop where
  | due (ms : List Move) (t : State) (hd : s.due ms) (h : DueCase (s.withMoves ms) t) : StepCase s t
  | stall (ms : List Move) (hm : s.env.moves = .stall :: ms) : StepCase s (s.withMoves ms)
  | offer (c : Command) (ms : List Move) (hm : s.env.moves = .offer c :: ms) :
      StepCase s (Machine.offer c (s.withMoves ms))
  | reset (ms : List Move) (hm : s.env.moves = .reset :: ms) : StepCase s (applyReset (s.withMoves ms))
  | lateAnswer (r : Request) (ms : List Move) (hm : s.env.moves = .lateAnswer r :: ms) (hr : r ∈ s.env.abandoned) :
      StepCase s { s with env := { s.env with moves := ms, abandoned := s.env.abandoned.erase r } }
  | connectSource (items : List SrcItem) (ms : List Move) (hm : s.env.moves = .connectSource items :: ms)
      (hq : s.reading = false) : StepCase s (setSource items (s.withMoves ms))
  | connectSink (contents : List Byte) (answers : List SinkAnswer) (ms : List Move)
      (hm : s.env.moves = .connectSink contents answers :: ms) (hq : s.writing = false) :
      StepCase s (setSink contents answers (s.withMoves ms))

/-- The inversion lemma of `step`. -/
theorem step_cases {s t : State} (h : step s = .next t) : StepCase s t := by
  match hm : s.env.moves with
  | [] => exact .due [] t (.inr ⟨hm, rfl⟩) (due_cases (by rwa [step_due (.inr ⟨hm, rfl⟩)] at h))
  | .go :: ms => exact .due ms t (.inl hm) (due_cases (by rwa [step_due (.inl hm)] at h))
  | .stall :: ms => rw [step_move hm] at h; injection h with h; subst h; exact .stall ms hm
  | .offer c :: ms => rw [step_move hm] at h; injection h with h; subst h; exact .offer c ms hm
  | .reset :: ms => rw [step_move hm] at h; injection h with h; subst h; exact .reset ms hm
  | .lateAnswer r :: ms =>
    rw [step_move hm] at h
    simp only [moveEvent, Event.result, Machine.lateAnswer] at h
    split at h
    · rename_i hr; injection h with h; subst h; exact .lateAnswer r ms hm hr
    · cases h
  | .connectSource items :: ms =>
    rw [step_move hm] at h
    simp only [moveEvent, Event.result, Machine.connectSource] at h
    split at h
    · cases h
    · rename_i hr; injection h with h; subst h; exact .connectSource items ms hm (Bool.eq_false_iff.mpr hr)
  | .connectSink contents answers :: ms =>
    rw [step_move hm] at h
    simp only [moveEvent, Event.result, Machine.connectSink] at h
    split at h
    · cases h
    · rename_i hr; injection h with h; subst h; exact .connectSink contents answers ms hm (Bool.eq_false_iff.mpr hr)

end Sys2Proof.Machine
end

