-- ==== Sys2Proof/Tests/Slice0.lean ====
section
/-! SUPPORT. Tests: the checks of WellFormed, every constructor's decoding, single steps with the values of
spec/95_test_vectors.md (each named in its comment), and a witness for the hypotheses of every statement that has some. -/

namespace Sys2Proof.Tests

open Sys2Proof.Machine

/-! ### Helpers -/

/-- An instance in IDLE with commands, a source and a sink. -/
def idle (cmds : List Command) (source : List SrcItem) (answers : List SinkAnswer) : State :=
  { State.reset with env := { Env.disconnected with cmds := cmds, source := source, sinkAnswers := answers } }

/-- The same in another phase. -/
def inPhase (q : Machine.Seq) (op : BitVec 2) (source : List SrcItem) (answers : List SinkAnswer) : State :=
  { idle [] source answers with seq := q, op := op }

/-- An instance that waits for `n` extra bytes after a payload. -/
def waiting (pay : U64) (n : BitVec 4) (source : List SrcItem) : State :=
  { inPhase .awaitExtra 0b11 source [] with pay := pay, extra := n }

/-- The state with moves of the environment. -/
def moving (ms : List Move) (s : State) : State := s.withMoves ms

def rspOf : Result → Option Response
  | .next t => t.rsp
  | _ => none

def seqOf : Result → Option Machine.Seq
  | .next t => some t.seq
  | _ => none

def requestsOf : Result → List Request
  | .next t => t.env.requests
  | _ => []

def analysisOf : Result → Option (U64 × BitVec 4)
  | .next t => some (t.pay, t.extra)
  | _ => none

def sinkOf : Result → List Byte
  | .next t => t.env.sink
  | _ => []

def sourceOf : Result → List SrcItem
  | .next t => t.env.source
  | _ => []

/-- The one error value that every implementation has in the model: what other ones there are is open (R6). -/
def failure : IoErr := ⟨0, rfl⟩

/-! ### WellFormed: an ill-formed term for each check -/

theorem test_prefix_line_256_refused : (AsmLine.prefixLine 256).wellFormed = false := by decide
theorem test_size_line_too_big_refused : (AsmLine.sizeLine (2 ^ 64)).wellFormed = false := by decide
theorem test_encode_line_too_big_refused : (AsmLine.encodeLine (2 ^ 64)).wellFormed = false := by decide
theorem test_lines_in_range : (AsmLine.prefixLine 255).wellFormed ∧ (AsmLine.sizeLine (2 ^ 64 - 1)).wellFormed ∧
    (AsmLine.encodeLine (2 ^ 64 - 1)).wellFormed ∧ AsmLine.decodeLine.wellFormed := by decide
theorem test_wide_command_refused : Port.command.wordWellFormed (2 ^ 66) = false ∧
    decode .command (2 ^ 66) = .error .tooWideForCommand := by decide
theorem test_wide_byte_refused : Port.source.wordWellFormed 256 = false ∧
    decode .source 256 = .error .tooWideForByte := by decide
theorem test_empty_system_refused : System.wellFormed [] = false ∧ System.wellFormed (System.boot 1) = true := by decide

/-! ### Decoding: a word for every constructor, written out from R83 and R90 (`cmd_op` in bits 1:0) -/

theorem test_decode_prefix : decode .command (0xB2 * 4 + 0b00) = .ok (.prefixOp 0xB2) := by decide
theorem test_decode_size : decode .command (300 * 4 + 0b01) = .ok (.size 300) := by decide
theorem test_decode_encode : decode .command ((2 ^ 64 - 1) * 4 + 0b10) = .ok (.encode 0xFFFFFFFFFFFFFFFF) := by decide
theorem test_decode_decode : decode .command 0b11 = .ok (.decode 0) := by decide
theorem test_decode_class1 : decode .source 0b10100011 = .ok (.prefixClassT1 0b1010001) := by decide
theorem test_decode_class2 : decode .source 0b10110010 = .ok (.prefixClassT2 0b101100) := by decide
theorem test_decode_class3 : decode .source 0b01100100 = .ok (.prefixClassT3 0b01100) := by decide
theorem test_decode_class4 : decode .source 0b10011000 = .ok (.prefixClassT4 0b1001) := by decide
theorem test_decode_class5 : decode .source 0b01110000 = .ok (.prefixClassT5 0b011) := by decide
theorem test_decode_class6 : decode .source 0b10100000 = .ok (.prefixClassT6 0b10) := by decide
theorem test_decode_class7 : decode .source 0b11000000 = .ok (.prefixClassT7 0b1) := by decide
theorem test_decode_class8 : decode .source 0b10000000 = .ok .prefixClassT8 := by decide
theorem test_decode_class9 : decode .source 0b00000000 = .ok .prefixClassT9 := by decide
/-- The table's numbers (log 3): op codes below 4, prefix bytes above. -/
theorem test_table_words : decodeTableWord 8 0 = some (.prefixOp 0) ∧ decodeTableWord 8 3 = some (.decode 0) ∧
    decodeTableWord 8 0x40 = some (.prefixClassT7 0) ∧ decodeTableWord 8 0x100 = none := by decide

/-! ### Fetching -/

theorem test_fetch_command : rspOf (step (State.reset.withFetchWord 8 1)) = some (.ok 1 none) := by decide
theorem test_fetch_prefix_byte : requestsOf (step (State.reset.withFetchWord 8 0x08)) = [.readExact 3] := by decide

/-! ### PREFIX (vectors P1, P2, P7, P9) -/

theorem test_prefix_zero_and_extra7 : rspOf (exec (.prefixOp 0x00) State.reset) = some (.ok 0 (some 8)) ∧
    rspOf (exec (.prefixOp 0x80) State.reset) = some (.ok 0 (some 7)) := by decide
theorem test_prefix_ignores_upper_bits : rspOf (exec (.prefixOp 0xFFFFFFFFFFFFFF01) State.reset) = some (.ok 0 (some 0)) ∧
    rspOf (exec (.prefixOp 0xB2) State.reset) = some (.ok 44 (some 1)) := by decide

/-! ### SIZE (vectors Z1 to Z19: both ends of every row) -/

theorem test_size_boundaries : [0, 127, 128, 16383, 16384, 0x1FFFFF, 0x200000, 0xFFFFFFF, 0x10000000, 0x7FFFFFFFF,
      0x800000000, 0x3FFFFFFFFFF, 0x40000000000, 0x1FFFFFFFFFFFF, 0x2000000000000, 0xFFFFFFFFFFFFFF, 0x100000000000000,
      0xFFFFFFFFFFFFFFFF].map Machine.size = [1, 1, 2, 2, 3, 3, 4, 4, 5, 5, 6, 6, 7, 7, 8, 8, 9, 9] := by decide
theorem test_size_300 : rspOf (exec (.size 300) State.reset) = some (.ok 2 none) := by decide

/-! ### ENCODE (vectors E5, E8, E19, E21, E24) -/

theorem test_encode_bytes : encodeBytes 300 = [0xB2, 0x04] ∧ encodeBytes 1000000 = [0x04, 0x12, 0x7A] ∧
    encodeBytes 0xFFFFFFFFFFFFFF = [0x80, 0xFF, 0xFF, 0xFF, 0xFF, 0xFF, 0xFF, 0xFF] ∧
    encodeBytes 0x0123456789ABCDEF = [0x00, 0xEF, 0xCD, 0xAB, 0x89, 0x67, 0x45, 0x23, 0x01] := by decide
theorem test_encode_issues_one_write : requestsOf (exec (.encode 300) State.reset) = [.writeAll [0xB2, 0x04]] ∧
    seqOf (exec (.encode 300) State.reset) = some .awaitWrite := by decide
theorem test_write_ok : rspOf (step { inPhase .awaitWrite 0b10 [] [.ok] with len := 2, buf := #v[0xB2, 4, 0, 0, 0, 0, 0, 0, 0] })
      = some (.ok 2 none) ∧
    sinkOf (step { inPhase .awaitWrite 0b10 [] [.ok] with len := 2, buf := #v[0xB2, 4, 0, 0, 0, 0, 0, 0, 0] })
      = [0xB2, 0x04] := by decide
theorem test_write_error (e : IoErr) : rspOf (step { inPhase .awaitWrite 0b10 [] [.err e] with len := 2 })
    = some (.ioError e) := rfl

/-! ### DECODE (vectors D2, D4, D9, D12, D14, D16, D18) -/

theorem test_decode_issues_read : requestsOf (exec (.decode 0) State.reset) = [.readExact 1] ∧
    seqOf (exec (.decode 0) State.reset) = some .awaitPrefix := by decide
theorem test_class1_ends : rspOf (exec (.prefixClassT1 127) (inPhase .awaitPrefix 0b11 [] [])) = some (.ok 127 none) := by
  decide
theorem test_class1_leaves_the_rest : sourceOf (step (inPhase .awaitPrefix 0b11 [.byte 0x01, .byte 0x99] [])) =
    [.byte 0x99] := by decide
theorem test_classes_analysis : let s := inPhase .awaitPrefix 0b11 [] []
    [exec (.prefixClassT2 44) s, exec (.prefixClassT3 12) s, exec (.prefixClassT4 9) s, exec (.prefixClassT5 5) s,
      exec (.prefixClassT6 3) s, exec (.prefixClassT7 1) s, exec .prefixClassT8 s, exec .prefixClassT9 s].map analysisOf =
    [some (44, 1), some (12, 2), some (9, 3), some (5, 4), some (3, 5), some (1, 6), some (0, 7), some (0, 8)] := by decide
theorem test_classes_requests : let s := inPhase .awaitPrefix 0b11 [] []
    [exec (.prefixClassT2 44) s, exec (.prefixClassT3 12) s, exec (.prefixClassT4 9) s, exec (.prefixClassT5 5) s,
      exec (.prefixClassT6 3) s, exec (.prefixClassT7 1) s, exec .prefixClassT8 s, exec .prefixClassT9 s].map requestsOf =
    [[.readExact 1], [.readExact 2], [.readExact 3], [.readExact 4], [.readExact 5], [.readExact 6], [.readExact 7],
      [.readExact 8]] := by decide
theorem test_extra_byte_300 : rspOf (step (waiting 44 1 [.byte 0x04])) = some (.ok 300 none) := by decide
theorem test_extra_bytes_non_canonical_300 : rspOf (step (waiting 12 2 [.byte 0x09, .byte 0x00])) = some (.ok 300 none) := by
  decide
theorem test_extra_bytes_seven : rspOf (step (waiting 0 7 [.byte 1, .byte 2, .byte 3, .byte 4, .byte 5, .byte 6, .byte 7])) =
    some (.ok 0x0007060504030201 none) := by decide
theorem test_prefix_read_error (e : IoErr) :
    rspOf (step (inPhase .awaitPrefix 0b11 [.fail e] [])) = some (.ioError e) := rfl
theorem test_truncated_varint (e : IoErr) : rspOf (step (waiting 0 2 [.byte 0xAA, .fail e])) = some (.ioError e) := rfl

/-! ### The sequencer and its environment -/

theorem test_busy_command_held : seqOf (step (moving [.offer ⟨0b01, 0⟩] (waiting 0 2 []))) = some .awaitExtra := by decide
theorem test_reset_in_flight : seqOf (step (moving [.reset] (waiting 0 2 []))) = some .idle ∧
    rspOf (step (moving [.reset] (waiting 0 2 []))) = none := by decide
theorem test_response_taken : seqOf (step { inPhase .done 0b01 [] [] with rsp := some (.ok 1 none) }) = some .idle := by decide
theorem test_status_11_refused : Status.ofBits 0b11 = .error .statusNeverProduced := by decide
theorem test_lanes : busLane (busWord [0x11, 0x22, 0x33]) 2 = 0x33 := by decide

/-! ### The assembler (program 1 of spec/95_test_vectors.md) -/

theorem test_assemble_hex_and_comment :
    assemble [['P', 'R', 'E', 'F', 'I', 'X', ' ', '0', 'x', '0', '4', ' ', ';', ' ', 'o', 'p'], ['d', 'e', 'c', 'o', 'd', 'e']]
      = .ok [⟨0b00, 4⟩, ⟨0b11, 0⟩] := by decide
theorem test_assemble_decimal : assemble [['S', 'I', 'Z', 'E', ' ', ' ', '3', '0', '0']] = .ok [⟨0b01, 300⟩] := by decide
theorem test_assemble_out_of_range : assemble [['P', 'R', 'E', 'F', 'I', 'X', ' ', '2', '5', '6']] = .error .outOfRange := by
  decide

/-! ### Witnesses: the hypotheses of each statement, met together -/

/-- For the statements over the bits and lengths alone, at the ends of their ranges. -/
theorem isLength_ends : IsLength 0 1 ∧ IsLength 127 1 ∧ IsLength 300 2 ∧ IsLength 0xFFFFFFFFFFFFFF 8 ∧
    IsLength 0x100000000000000 9 ∧ IsLength 0xFFFFFFFFFFFFFFFF 9 := by unfold IsLength; decide
theorem isTrailingZeros_ends : IsTrailingZeros 0x01 0 ∧ IsTrailingZeros 0xB2 1 ∧ IsTrailingZeros 0x80 7 ∧
    IsTrailingZeros 0x00 8 := by unfold IsTrailingZeros; decide
theorem witness_EncodeOfDecodeIsTheWord : Port.command.wordWellFormed (2 ^ 66 - 1) = true ∧
    Port.source.wordWellFormed 255 = true := by decide
/-- A command statement needs IDLE: PrefixAnswersPayloadAndExtra, SizeAnswersTheMinimalLength, SizeBoundaryTable,
SizeComparatorForm, SizeBitLengthForm, DecodeIssuesThePrefixRead. -/
theorem witness_idle : State.reset.seq = .idle := rfl
theorem witness_SizeIsMonotonic : State.reset.seq = .idle ∧ (127#64).toNat ≤ (128#64).toNat := by decide
theorem witness_EncodeFillsTheBufferAndWrites : (IsLength 0 1 ∧ IsLength 0xFFFFFFFFFFFFFFFF 9) ∧ State.reset.seq = .idle :=
  ⟨⟨isLength_ends.1, isLength_ends.2.2.2.2.2⟩, rfl⟩
/-- AnalyzeIsABijection: the second clause at its largest payload and at no payload. -/
theorem witness_AnalyzeIsABijection : ((0#4).toNat ≤ 7 ∧ (127#64).toNat < 2 ^ (7 - (0#4).toNat)) ∧
    ((7#4).toNat ≤ 7 ∧ (0#64).toNat < 2 ^ (7 - (7#4).toNat)) := by decide
theorem witness_NoStepProducesOverflow : ∃ s t : State, step s = .next t ∧ t.rsp = some (.overflowError 9) :=
  ⟨{ State.reset with rsp := some (.overflowError 9) }, _, rfl, rfl⟩
theorem witness_SinkOkEndsEncode : let s : State := { inPhase .awaitWrite 0b10 [] [.ok] with len := 9 }
    s.seq = .awaitWrite ∧ s.due [] ∧ 1 ≤ s.len.toNat ∧ s.len.toNat ≤ 9 ∧ s.env.sinkAnswers = .ok :: [] :=
  ⟨rfl, .inr ⟨rfl, rfl⟩, by decide, by decide, rfl⟩
theorem witness_SinkErrorIsRaisedVerbatim : let s : State := moving [.go] { inPhase .awaitWrite 0b10 [] [.err failure] with len := 1 }
    s.seq = .awaitWrite ∧ s.due [] ∧ 1 ≤ s.len.toNat ∧ s.len.toNat ≤ 9 ∧ s.env.sinkAnswers = .err failure :: [] :=
  ⟨rfl, .inl rfl, by decide, by decide, rfl⟩
/-- Both answers of the sink. -/
theorem witness_EncodeWritesExactlyTheCanonicalVarint : IsLength 127 1 ∧ ∀ a, let s := idle [⟨0b10, 127⟩] [] [a]
    s.seq = .idle ∧ s.prompt ∧ s.env.cmds = ⟨0b10, 127⟩ :: [] ∧ s.env.sinkAnswers = a :: [] :=
  ⟨isLength_ends.2.1, fun _ => ⟨rfl, rfl, rfl, rfl⟩⟩
/-- ClassT1EndsTheDecode and ClassesT2ToT9AwaitTheirExtraBytes. -/
theorem witness_awaitPrefix : (inPhase .awaitPrefix 0b11 [] []).seq = .awaitPrefix := rfl
/-- One witness for each clause: no extra byte, one, and eight. -/
theorem witness_DeliveredPrefixByteSelectsTheSecondRead :
    (∀ b : Byte, (inPhase .awaitPrefix 0b11 [.byte b] []).seq = .awaitPrefix ∧ (inPhase .awaitPrefix 0b11 [.byte b] []).due [] ∧
      (inPhase .awaitPrefix 0b11 [.byte b] []).env.source = .byte b :: []) ∧
    IsTrailingZeros 0x01 0 ∧ IsTrailingZeros 0xB2 1 ∧ IsTrailingZeros 0x00 8 :=
  ⟨fun _ => ⟨rfl, .inr ⟨rfl, rfl⟩, rfl⟩, isTrailingZeros_ends.1, isTrailingZeros_ends.2.1, isTrailingZeros_ends.2.2.2⟩
theorem witness_PrefixByteWithoutARequestIsRefused : (encode .prefixClassT9).1 = .source ∧ State.reset.seq ≠ .awaitPrefix := by
  decide
/-- One extra byte, and eight. -/
theorem witness_ExtraBytesAreFolded :
    (let s := waiting 44 1 [.byte 4]
     s.seq = .awaitExtra ∧ s.due [] ∧ 1 ≤ s.extra.toNat ∧ s.extra.toNat ≤ 8 ∧ ([4] : List Byte).length = s.extra.toNat ∧
      s.env.source = delivering [4] ++ []) ∧
    (let s := waiting 0 8 (delivering [1, 2, 3, 4, 5, 6, 7, 8])
     s.seq = .awaitExtra ∧ s.due [] ∧ 1 ≤ s.extra.toNat ∧ s.extra.toNat ≤ 8 ∧
      ([1, 2, 3, 4, 5, 6, 7, 8] : List Byte).length = s.extra.toNat ∧
      s.env.source = delivering [1, 2, 3, 4, 5, 6, 7, 8] ++ []) :=
  ⟨⟨rfl, .inr ⟨rfl, rfl⟩, by decide, by decide, by decide, rfl⟩, ⟨rfl, .inr ⟨rfl, rfl⟩, by decide, by decide, by decide, rfl⟩⟩
/-- Each phase; in AWAIT_EXTRA after no byte and after one of two. -/
theorem witness_SourceErrorIsRaisedVerbatim :
    (let s := inPhase .awaitPrefix 0b11 [.fail failure] []
     s.due [] ∧ s.seq = .awaitPrefix ∧ s.env.source = delivering [] ++ .fail failure :: []) ∧
    (let s := waiting 0 1 [.fail failure]
     s.due [] ∧ s.seq = .awaitExtra ∧ 0 < s.extra.toNat ∧ s.extra.toNat ≤ 8 ∧
      s.env.source = delivering [] ++ .fail failure :: []) ∧
    (let s := waiting 0 2 [.byte 0xAA, .fail failure]
     s.due [] ∧ s.seq = .awaitExtra ∧ 1 < s.extra.toNat ∧ s.extra.toNat ≤ 8 ∧
      s.env.source = delivering [0xAA] ++ .fail failure :: []) :=
  ⟨⟨.inr ⟨rfl, rfl⟩, rfl, rfl⟩, ⟨.inr ⟨rfl, rfl⟩, rfl, by decide, by decide, rfl⟩,
    ⟨.inr ⟨rfl, rfl⟩, rfl, by decide, by decide, rfl⟩⟩
/-- One byte and nine bytes; two equal sequences; the largest value of each kind of length. -/
theorem witness_FoldIsExactAndOneToOne :
    IsTrailingZeros 0x01 ([] : List Byte).length ∧ IsTrailingZeros 0x00 ([1, 2, 3, 4, 5, 6, 7, 8] : List Byte).length ∧
    wireValue [0xB2, 0x04] = some 300 ∧ (127#64).toNat < 2 ^ (7 * 1) ∧ (0xFFFFFFFFFFFFFF#64).toNat < 2 ^ (7 * 8) :=
  ⟨isTrailingZeros_ends.1, isTrailingZeros_ends.2.2.2, by decide, by decide, by decide⟩
/-- The shortest and the longest encoding of a value, and the value with one encoding only. -/
theorem witness_OneEncodingOfEachLength : IsLength 0 1 ∧ IsLength 0xFFFFFFFFFFFFFFFF 9 ∧ wireValue [0x01] = some 0 ∧
    wireValue [0, 0, 0, 0, 0, 0, 0, 0, 0] = some 0 ∧ ([] : List Byte).length < 1 ∧ 9 < (List.replicate 10 (0 : Byte)).length :=
  ⟨isLength_ends.1, isLength_ends.2.2.2.2.2, by decide, by decide, by decide, by decide⟩
/-- A one-byte, a two-byte and a nine-byte varint, with bytes after them. -/
theorem witness_DecodeConsumesExactlyOneVarint :
    (wireValue [0xFF] = some 127 ∧ wireValue [0xB2, 0x04] = some 300 ∧
      wireValue [0, 1, 2, 3, 4, 5, 6, 7, 8] = some 0x0807060504030201) ∧
    ∀ bs, let s := idle [⟨0b11, 0⟩] (delivering bs ++ [.byte 0x99]) []
      s.seq = .idle ∧ s.prompt ∧ s.env.cmds = ⟨0b11, 0⟩ :: [] ∧ s.env.source = delivering bs ++ [.byte 0x99] :=
  ⟨by decide, fun _ => ⟨rfl, rfl, rfl, rfl⟩⟩
theorem witness_DecodeUndoesEncode : let s := idle [⟨0b11, 0⟩] (delivering (wireBytes 300 2) ++ []) []
    IsLength 300 2 ∧ s.seq = .idle ∧ s.prompt ∧ s.env.cmds = ⟨0b11, 0⟩ :: [] ∧
      s.env.source = delivering (wireBytes 300 2) ++ [] :=
  ⟨isLength_ends.2.2.1, rfl, rfl, rfl, rfl⟩
theorem witness_NonCanonicalVarintsAreDecoded : let s := idle [⟨0b11, 0⟩] (delivering [0xB2, 0x00] ++ []) []
    IsTrailingZeros 0xB2 ([0x00] : List Byte).length ∧ s.seq = .idle ∧ s.prompt ∧ s.env.cmds = ⟨0b11, 0⟩ :: [] ∧
      s.env.source = delivering (0xB2 :: [0x00]) ++ [] :=
  ⟨isTrailingZeros_ends.2.1, rfl, rfl, rfl, rfl⟩
theorem witness_BackToBackVarintsDecodeInOrder :
    let wires : List (List Byte × U64) := [([0xFF], 127), ([0x02, 0x02], 128)]
    let s := idle [⟨0b11, 0⟩, ⟨0b11, 0⟩] [.byte 0xFF, .byte 0x02, .byte 0x02] []
    (∀ w ∈ wires, wireValue w.1 = some w.2) ∧ s.seq = .idle ∧ s.prompt ∧
      s.env.cmds = List.replicate wires.length ⟨0b11, 0⟩ ++ [] ∧
      s.env.source = delivering (wires.flatMap fun w => w.1) ++ [] :=
  ⟨by decide, rfl, rfl, rfl, rfl⟩
theorem witness_StepRunsTheOfferedCommand : let s := idle [⟨0b01, 300⟩] [] []
    s.seq = .idle ∧ s.due [] ∧ s.env.cmds = ⟨0b01, 300⟩ :: [] := ⟨rfl, .inr ⟨rfl, rfl⟩, rfl⟩
theorem witness_StepRunsTheDeliveredPrefixByte : let s := moving [.go, .stall] (inPhase .awaitPrefix 0b11 [.byte 0] [])
    s.seq = .awaitPrefix ∧ s.due [.stall] ∧ s.env.source = .byte 0 :: [] := ⟨rfl, .inl rfl, rfl⟩
theorem witness_CommandsAreAcceptedInIdleOnly : let s := moving [.offer ⟨0b00, 1⟩] (inPhase .done 0b01 [] [])
    s.seq ≠ .idle ∧ s.env.moves = .offer ⟨0b00, 1⟩ :: [] := ⟨by decide, rfl⟩
/-- One witness for each clause: an offer outside IDLE, and a move that is no reset. -/
theorem witness_NoStepAcceptsACommandOutsideIdle : let s := moving [.offer ⟨0b00, 1⟩] (waiting 0 2 [])
    s.seq ≠ .idle ∧ (∃ t, step s = .next t ∧ t.env.cmds = s.env.cmds ++ [⟨0b00, 1⟩]) ∧
      ∀ ms, s.env.moves ≠ .reset :: ms := ⟨by decide, ⟨_, rfl, rfl⟩, fun _ h => nomatch h⟩
/-- OpAndOperandChangeAtAcceptanceOnly, AtMostOneRequestIsOutstanding: a step that answers next, with a change of both. -/
theorem witness_step_next : ∃ t, step (idle [⟨0b11, 7⟩] [] []) = .next t ∧ t.op = 0b11 ∧ t.env.requests = [.readExact 1] :=
  ⟨_, rfl, rfl, rfl⟩
theorem witness_TakingTheResponseLeadsToIdle : let s : State := { inPhase .done 0b01 [] [] with rsp := some (.ok 1 none) }
    s.seq = .done ∧ s.due [] ∧ s.rsp = some (.ok 1 none) := ⟨rfl, .inr ⟨rfl, rfl⟩, rfl⟩
/-- Each phase, and each of the two kinds of move. -/
theorem witness_AnUnansweredReadBlocks :
    (let s := inPhase .awaitPrefix 0b11 [] []
     s.env.source = delivering [] ∧ s.seq = .awaitPrefix ∧ s.due [] ∧ (∃ t, step s = .next t) ∧ ∀ ms, s.env.moves ≠ .reset :: ms) ∧
    (let s := moving [.stall] (waiting 0 2 [.byte 0xAA])
     s.env.source = delivering [0xAA] ∧ s.seq = .awaitExtra ∧ 1 < s.extra.toNat ∧ s.extra.toNat ≤ 8 ∧
      s.env.moves = .stall :: []) :=
  ⟨⟨rfl, rfl, .inr ⟨rfl, rfl⟩, ⟨_, rfl⟩, fun _ h => nomatch h⟩, ⟨rfl, rfl, by decide, by decide, rfl⟩⟩
/-- A state at the top of every range that meets the invariant: EveryStepKeepsTheInvariant, NoFaultInTheInvariant. -/
theorem inv_top (source : List SrcItem) (ms : List Move) :
    (moving ms { inPhase .awaitExtra 0b11 source [] with len := 9, extra := 8, pay := 0 }).Inv :=
  have bounds : (9#4).toNat ≤ 9 ∧ (8#4).toNat ≤ 8 ∧ (0#64).toNat ≤ 127 := by decide
  have eight : 1 ≤ (8#4).toNat := by decide
  have zero : analyze 0#8 = .ok 0#64 8#4 := by decide
  ⟨bounds, ⟨rfl, eight, zero⟩, fun _ h => (nomatch h), fun _ h => (nomatch h), fun _ h => (nomatch h),
    fun _ h => (nomatch h)⟩
theorem witness_EveryStepKeepsTheInvariant :
    ∃ s t : State, s.Inv ∧ step s = .next t ∧ t.rsp = some (.ok 0x0807060504030201 none) :=
  ⟨_, _, inv_top (delivering [1, 2, 3, 4, 5, 6, 7, 8]) [], rfl, by decide⟩
/-- ENCODE 300 with its write outstanding, in the invariant. -/
def writing300 (answers : List SinkAnswer) : State :=
  { inPhase .awaitWrite 0b10 [] answers with operand := 300, len := 2, buf := #v[0xB2, 4, 0, 0, 0, 0, 0, 0, 0] }
theorem inv_writing300 (answers : List SinkAnswer) : (writing300 answers).Inv :=
  have bounds : (2#4).toNat ≤ 9 ∧ (0#4).toNat ≤ 8 ∧ (0#64).toNat ≤ 127 := by decide
  have bytes : (#v[0xB2#8, 4#8, 0#8, 0#8, 0#8, 0#8, 0#8, 0#8, 0#8]).toList.take (2#4).toNat = encodeBytes 300#64 := by decide
  have one : 1 ≤ (2#4).toNat := by decide
  ⟨bounds, ⟨rfl, bytes, one⟩, fun _ h => (nomatch h), fun _ h => (nomatch h), fun _ h => (nomatch h), fun _ h => (nomatch h)⟩
/-- The source changed by a DECODE; the sink changed by an ENCODE, and by the environment. -/
theorem witness_OnlyDecodeReadsAndOnlyEncodeWrites :
    (∃ s t : State, s.Inv ∧ step s = .next t ∧ t.env.source ≠ s.env.source) ∧
    (∃ s t : State, s.Inv ∧ s.env.moves = [] ∧ step s = .next t ∧ t.env.sink = s.env.sink ++ [0xB2, 0x04]) ∧
    ∃ s t : State, s.Inv ∧ step s = .next t ∧ t.env.sink ≠ s.env.sink :=
  ⟨⟨_, _, inv_top (delivering [1, 2, 3, 4, 5, 6, 7, 8]) [], rfl, by decide⟩,
    ⟨_, _, inv_writing300 [.ok], rfl, rfl, by decide⟩, ⟨_, _, inv_top [] [.connectSink [1] []], rfl, by decide⟩⟩
/-- Both bounds of LEN, and each of the two kinds of move. -/
theorem witness_AnUnansweredWriteBlocks :
    (let s : State := { inPhase .awaitWrite 0b10 [] [] with len := 1 }
     s.seq = .awaitWrite ∧ 1 ≤ s.len.toNat ∧ s.len.toNat ≤ 9 ∧ s.env.sinkAnswers = [] ∧ s.due [] ∧
       (∃ t, step s = .next t) ∧ ∀ ms, s.env.moves ≠ .reset :: ms) ∧
    (let s : State := moving [.stall] { inPhase .awaitWrite 0b10 [] [] with len := 9 }
     s.seq = .awaitWrite ∧ 1 ≤ s.len.toNat ∧ s.len.toNat ≤ 9 ∧ s.env.sinkAnswers = [] ∧ s.env.moves = .stall :: []) :=
  ⟨⟨rfl, by decide, by decide, rfl, .inr ⟨rfl, rfl⟩, ⟨_, rfl⟩, fun _ h => nomatch h⟩, ⟨rfl, by decide, by decide, rfl, rfl⟩⟩
theorem witness_LeftoverLatchesAreNeverRead : ∃ t, (idle [⟨0b01, 300⟩] [] []).seq = .idle ∧
    stepsTo 1 (idle [⟨0b01, 300⟩] [] []) t ∧ t.rsp = some (.ok 2 none) := ⟨_, rfl, ⟨_, rfl, rfl⟩, by decide⟩
theorem witness_StepsAgreeOnStatesThatAgree :
    (idle [⟨0b01, 300⟩] [] []).Agree { idle [⟨0b01, 300⟩] [] [] with len := 5, pay := 9, rsp := some (.ioError failure) } :=
  ⟨rfl, rfl, rfl, rfl, rfl, fun h => (nomatch h), fun h => (nomatch h), fun h => (nomatch h)⟩
/-- ResetFromAnyPhaseLeadsToIdle, and the two parts of ResetAbandonsTheOperation. -/
theorem witness_reset_moves : (moving [.reset] (waiting 0 2 [])).env.moves = .reset :: [] ∧
    (let s : State := moving [.lateAnswer (.readExact 2)] { State.reset with env := { Env.disconnected with abandoned := [.readExact 2] } }
     s.env.moves = .lateAnswer (.readExact 2) :: [] ∧ Request.readExact 2 ∈ s.env.abandoned) :=
  ⟨rfl, rfl, by decide⟩
theorem witness_LanesCarryTheStreamInOrder : 0 < ([0x11, 0x22] : List Byte).length ∧ 1 < ([0x11, 0x22] : List Byte).length := by
  decide
/-- Both sides of each bound. -/
theorem witness_AssemblerRangesAreChecked : 255 < 2 ^ 8 ∧ 2 ^ 8 ≤ 256 ∧ 2 ^ 64 - 1 < 2 ^ 64 := by decide
theorem witness_InvariantHoldsAtReset : (idle [⟨0b00, 1⟩] [.byte 1] [.ok]).env.taken = [] ∧
    (idle [⟨0b00, 1⟩] [.byte 1] [.ok]).env.requests = [] := ⟨rfl, rfl⟩
theorem witness_InstancesAreIndependent : ∃ a b : System, 0 ≠ 1 ∧
    System.stepAt 0 [idle [⟨0b01, 1⟩] [] [], idle [⟨0b01, 300⟩] [] []] = .next a ∧
    System.stepAt 1 [idle [⟨0b01, 1⟩] [] [], idle [⟨0b01, 300⟩] [] []] = .next b := ⟨_, _, by decide, rfl, rfl⟩

end Sys2Proof.Tests
end

section
/-! PROOF. Noninterference of the leftover latches (spec/10_state.md R33): every operation of a step keeps two states that
agree on what their operations in flight have written in agreement, so every step and every run does. -/

namespace Sys2Proof.Machine

/-! ### Agreement of states -/

/-- In IDLE no operation is in flight, so agreement asks nothing of the five leftover latches. -/
theorem agree_of_idle (s : State) (buf : Vector Byte 9) (len extra : BitVec 4) (pay : U64) (rsp : Option Response)
    (hq : s.seq = .idle) :
    s.Agree { s with buf := buf, len := len, pay := pay, extra := extra, rsp := rsp } where
  seq := rfl
  op := rfl
  operand := rfl
  env := rfl
  freeIx := rfl
  analysis h := by simp [hq] at h
  output h := by simp [hq] at h
  response h := by simp [hq] at h

section Operations

variable {s s' : State} (h : s.Agree s')
include h

theorem outstanding_agree : s.outstanding = s'.outstanding := by
  cases hq : s.seq with
  | idle | awaitPrefix | done => simp [State.outstanding, ← h.seq, hq]
  | awaitExtra => simp [State.outstanding, ← h.seq, hq, h.analysis hq]
  | awaitWrite => simp [State.outstanding, ← h.seq, hq, h.output hq]

theorem reading_agree : s.reading = s'.reading := by simp only [State.reading, h.seq]

theorem writing_agree : s.writing = s'.writing := by simp only [State.writing, h.seq]

/-- What happens to the environment alone keeps agreement, as long as it depends on the environment alone. -/
theorem mapEnv_agree (f : Env → Env) :
    ({ s with env := f s.env } : State).Agree { s' with env := f s'.env } :=
  { h with env := congrArg f h.env }

theorem setSource_agree (items : List SrcItem) : (setSource items s).Agree (setSource items s') :=
  mapEnv_agree h fun e => { e with source := items }

theorem setSink_agree (contents : List Byte) (answers : List SinkAnswer) :
    (setSink contents answers s).Agree (setSink contents answers s') :=
  mapEnv_agree h fun e => { e with sink := contents, sinkAnswers := answers }

theorem withMoves_agree (ms : List Move) : (s.withMoves ms).Agree (s'.withMoves ms) :=
  mapEnv_agree h fun e => { e with moves := ms }

theorem accept_agree (op : BitVec 2) (operand : U64) : (accept op operand s).Agree (accept op operand s') :=
  { h with op := rfl, operand := rfl }

/-- A response ends the operation, so it settles every latch that a later phase reads. -/
theorem respond_agree (r : Response) : (respond r s).Agree (respond r s') where
  seq := rfl
  op := h.op
  operand := h.operand
  env := h.env
  freeIx := h.freeIx
  analysis := nofun
  output := nofun
  response _ := rfl

theorem raise_agree (err : CoreError) : (raise err s).Agree (raise err s') where
  seq := rfl
  op := h.op
  operand := h.operand
  env := h.env
  freeIx := congrArg (· + 1) h.freeIx
  analysis := nofun
  output := nofun
  response _ := rfl

theorem failRead_agree (e : IoErr) : (failRead e s).Agree (failRead e s') := by
  simp only [failRead, h.freeIx]
  exact raise_agree (setSource_agree h _) _

theorem failWrite_agree (e : IoErr) (answers : List SinkAnswer) :
    (failWrite e answers s).Agree (failWrite e answers s') := by
  simp only [failWrite, h.freeIx]
  exact raise_agree (setSink_agree h _ _) _

/-- Filling BUF outside AWAIT_WRITE keeps agreement whatever the bytes: no phase before the next response reads them. -/
theorem fillBuf_agree (bytes bytes' : List Byte) (hq : s.seq ≠ .awaitWrite) :
    (fillBuf bytes s).Agree (fillBuf bytes' s') :=
  { h with freeIx := congrArg (· + 1) h.freeIx, output := fun hw => absurd hw hq }

theorem applyReset_agree : (applyReset s).Agree (applyReset s') where
  seq := rfl
  op := rfl
  operand := rfl
  env := by
    simp only [applyReset_env, abandonRequest, outstanding_agree h, reading_agree h, writing_agree h, h.env, h.freeIx]
  freeIx := congrArg (· + 1) h.freeIx
  analysis := nofun
  output := nofun
  response := nofun

/-! ### The operations' steps -/

theorem runPrefix_agree : (runPrefix s).Agree (runPrefix s') := by
  simp only [runPrefix_eq, h.operand]
  exact respond_agree h _

theorem runSize_agree : (runSize s).Agree (runSize s') := by
  simp only [runSize, h.operand]
  exact respond_agree h _

/-- ENCODE writes LEN and the meaningful bytes of BUF from the operand, so AWAIT_WRITE finds them equal. -/
theorem runEncode_agree : (runEncode s).Agree (runEncode s') where
  seq := rfl
  op := h.op
  operand := h.operand
  env := by simp only [runEncode_eq, issue_env, fillBuf_env, h.env, h.operand]
  freeIx := congrArg (· + 1) h.freeIx
  analysis := nofun
  output _ := by simp only [runEncode_bufBytes, ← BitVec.toNat_inj, runEncode_len, h.operand, and_self]
  response := nofun

theorem runDecode_agree : (runDecode s).Agree (runDecode s') where
  seq := rfl
  op := h.op
  operand := h.operand
  env := by simp only [runDecode, issue_env, h.env]
  freeIx := h.freeIx
  analysis := nofun
  output := nofun
  response := nofun

theorem acceptedBy_agree (c : Command) : (acceptedBy c s).Agree (acceptedBy c s') := by
  unfold acceptedBy
  have ha := accept_agree h c.op c.operand
  split_ifs
  · exact runPrefix_agree ha
  · exact runSize_agree ha
  · exact runEncode_agree ha
  · exact runDecode_agree ha

/-- DECODE writes PAY and EXTRA from its first byte before AWAIT_EXTRA reads them. -/
theorem afterAnalysis_agree (b : Byte) (a : Analysis) (hq : s.seq = .awaitPrefix) :
    (afterAnalysis b a (setBuf0 b s)).Agree (afterAnalysis b a (setBuf0 b s')) := by
  have hbuf : (setBuf0 b s).Agree (setBuf0 b s') := { h with output := fun hw => by simp [hq] at hw }
  cases a with
  | overflow count => exact raise_agree hbuf _
  | ok payload extra =>
    have hset : (setAnalysis payload extra (setBuf0 b s)).Agree (setAnalysis payload extra (setBuf0 b s')) :=
      { hbuf with analysis := fun _ => ⟨rfl, rfl⟩ }
    simp only [afterAnalysis]
    split_ifs
    · exact respond_agree (fillBuf_agree hset _ _ (by simp [hq])) _
    · exact { hset with
        seq := rfl
        env := by simp only [issue_env, hset.env]
        analysis := fun _ => ⟨rfl, rfl⟩
        output := nofun
        response := nofun }

/-- The decoded value is a fold over PAY, EXTRA and the delivered bytes; what BUF[0] held is not in it. -/
theorem takeExtra_agree (bytes : List Byte) (hq : s.seq = .awaitExtra) (hl : bytes.length ≤ 8) :
    (takeExtra bytes s).Agree (takeExtra bytes s') := by
  obtain ⟨hpay, hextra⟩ := h.analysis hq
  rw [takeExtra_eq bytes s hl, takeExtra_eq bytes s' hl, hpay, hextra]
  exact respond_agree (fillBuf_agree h _ _ (by simp [hq])) _

end Operations

/-! ### Agreement of steps and runs -/

/-- Two outcomes that no operation can tell apart: next states that agree, or the same reason to stop. -/
inductive ResultAgree : Result → Result → Prop where
  | next {t t' : State} (h : t.Agree t') : ResultAgree (.next t) (.next t')
  | fault (r : Fault) : ResultAgree (.fault r) (.fault r)
  | refused (r : Refusal) : ResultAgree (.refused r) (.refused r)

/-- Outcomes that agree are both next states if one of them is. -/
theorem ResultAgree.exists_next {r' : Result} {t : State} (h : ResultAgree (.next t) r') :
    ∃ t', r' = .next t' ∧ t.Agree t' := by
  cases h with
  | next h => exact ⟨_, rfl, h⟩

section Steps

variable {s s' : State} (h : s.Agree s')
include h

theorem awaitExtra_agree (hq : s.seq = .awaitExtra) : ResultAgree (awaitExtra s) (awaitExtra s') := by
  unfold awaitExtra
  rw [← (h.analysis hq).2, ← h.env]
  split_ifs with hb
  · rcases readExact_cases s.extra.toNat s.env.source with
      ⟨bytes, rest, hr, hl, -⟩ | ⟨-, e, -, hr, -, -⟩ | ⟨-, hr, -, -⟩
    · rw [hr]
      exact .next (takeExtra_agree (setSource_agree h rest) bytes hq (hl.trans_le hb.2))
    · rw [hr]
      exact .next (failRead_agree h e)
    · rw [hr]
      exact .next h
  · exact .fault _

theorem awaitWrite_agree (hq : s.seq = .awaitWrite) : ResultAgree (awaitWrite s) (awaitWrite s') := by
  obtain ⟨hlen, hbytes⟩ := h.output hq
  unfold awaitWrite
  rw [← hlen, ← hbytes, ← h.env]
  split_ifs
  · cases s.env.sinkAnswers with
    | nil => exact .next h
    | cons answer answers =>
      cases answer with
      | ok => exact .next (respond_agree (setSink_agree h _ _) _)
      | err e => exact .next (failWrite_agree h e answers)
  · exact .fault _

theorem takeResponse_agree (hq : s.seq = .done) : ResultAgree (takeResponse s) (takeResponse s') := by
  unfold takeResponse
  rw [← h.response hq]
  cases s.rsp with
  | none => exact .fault _
  | some r =>
    exact .next { mapEnv_agree h fun e => { e with taken := e.taken ++ [r] } with
      seq := rfl, analysis := nofun, output := nofun, response := nofun }

theorem dueEvent_agree : ResultAgree (dueEvent s).result (dueEvent s').result := by
  have henv := h.env
  cases hq : s.seq with
  | idle =>
    have hq' := h.seq.symm.trans hq
    cases hc : s.env.cmds with
    | nil =>
      rw [dueEvent_noCommand hq hc, dueEvent_noCommand hq' (henv ▸ hc)]
      exact .next h
    | cons c cs =>
      rw [dueEvent_command hq hc, dueEvent_command hq' (henv ▸ hc)]
      exact .next (acceptedBy_agree (mapEnv_agree h fun e => { e with cmds := cs }) c)
  | awaitPrefix =>
    have hq' := h.seq.symm.trans hq
    match hs : s.env.source with
    | [] =>
      rw [dueEvent_prefixBlocked hq hs, dueEvent_prefixBlocked hq' (henv ▸ hs)]
      exact .next h
    | .fail e :: rest =>
      rw [dueEvent_prefixError hq hs, dueEvent_prefixError hq' (henv ▸ hs)]
      exact .next (failRead_agree h e)
    | .byte b :: rest =>
      rw [dueEvent_prefixByte hq hs, dueEvent_prefixByte hq' (henv ▸ hs),
        takePrefix_eq (s := setSource rest s) b hq, takePrefix_eq (s := setSource rest s') b hq']
      exact .next (afterAnalysis_agree (setSource_agree h rest) b _ hq)
  | awaitExtra =>
    rw [dueEvent_awaitExtra hq, dueEvent_awaitExtra (h.seq.symm.trans hq)]
    exact awaitExtra_agree h hq
  | awaitWrite =>
    rw [dueEvent_awaitWrite hq, dueEvent_awaitWrite (h.seq.symm.trans hq)]
    exact awaitWrite_agree h hq
  | done =>
    rw [dueEvent_done hq, dueEvent_done (h.seq.symm.trans hq)]
    exact takeResponse_agree h hq

theorem moveEvent_agree (m : Move) : ResultAgree (moveEvent m s).result (moveEvent m s').result := by
  cases m with
  | go => exact dueEvent_agree h
  | stall => exact .next h
  | offer c => exact .next (mapEnv_agree h fun e => { e with cmds := e.cmds ++ [c] })
  | reset => exact .next (applyReset_agree h)
  | lateAnswer r =>
    have hmem : r ∈ s.env.abandoned ↔ r ∈ s'.env.abandoned := by rw [h.env]
    simp only [moveEvent, Event.result, lateAnswer, hmem]
    split_ifs
    · exact .next (mapEnv_agree h fun e => { e with abandoned := e.abandoned.erase r })
    · exact .refused _
  | connectSource items =>
    simp only [moveEvent, Event.result, connectSource, ← reading_agree h]
    split_ifs
    · exact .refused _
    · exact .next (setSource_agree h items)
  | connectSink contents answers =>
    simp only [moveEvent, Event.result, connectSink, ← writing_agree h]
    split_ifs
    · exact .refused _
    · exact .next (setSink_agree h contents answers)

/-- The unwinding lemma: one step of two states that agree has outcomes that agree. -/
theorem step_agree : ResultAgree (step s) (step s') := by
  have henv := h.env
  cases hm : s.env.moves with
  | nil =>
    rw [step_due (.inr ⟨hm, rfl⟩), step_due (.inr ⟨henv ▸ hm, rfl⟩)]
    exact dueEvent_agree (withMoves_agree h [])
  | cons m ms =>
    rw [step_move hm, step_move (henv ▸ hm)]
    exact moveEvent_agree (withMoves_agree h ms) m

end Steps

/-- Runs of any length from two states that agree end in states that agree. -/
theorem stepsTo_agree {k : Nat} {s s' t : State} (h : s.Agree s') (hrun : stepsTo k s t) :
    ∃ t', stepsTo k s' t' ∧ t.Agree t' := by
  induction k generalizing s s' with
  | zero =>
    subst hrun
    exact ⟨s', rfl, h⟩
  | succ k ih =>
    obtain ⟨u, hstep, hrest⟩ := hrun
    obtain ⟨u', hstep', hu⟩ := (hstep ▸ step_agree h).exists_next
    obtain ⟨t', hrest', ht⟩ := ih hu hrest
    exact ⟨t', ⟨u', hstep', hrest'⟩, ht⟩

/-- Settles O39: the two instances agree at the start, and runs keep agreement. -/
theorem leftoverLatchesAreNeverRead : Obligations.LeftoverLatchesAreNeverRead := by
  intro k s t buf len extra pay rsp hq hrun
  obtain ⟨t', hrun', ht⟩ := stepsTo_agree (agree_of_idle s buf len extra pay rsp hq) hrun
  exact ⟨t', hrun', ht.seq.symm, ht.op.symm, ht.operand.symm, ht.env.symm, fun hd => (ht.response hd).symm⟩

end Sys2Proof.Machine
end

section
/-! PROOF. The bytes on the wire (spec/20_memory.md R53, R62): ENCODE's buffer holds the canonical varint, one `WriteAll`
carries exactly its bytes whatever the sink answers, and a transfer's lanes carry the stream in order. -/

namespace Sys2Proof.Machine

/-! ### The canonical length -/

theorem isLength_size (v : U64) : IsLength v (size v) := by
  obtain ⟨hpos, hle, hfits, hleast⟩ := sizeFrom_spec v 8 1
  exact ⟨hpos, hle, fun h => hfits (Nat.lt_succ_of_le h), fun k hk h1 => hleast k h1 hk⟩

theorem IsLength.le_of_isLength {v : U64} {t u : Nat} (ht : IsLength v t) (hu : IsLength v u) : t ≤ u := by
  obtain ⟨-, ht9, -, hleast⟩ := ht
  obtain ⟨hpos, -, hfits, -⟩ := hu
  by_contra hlt
  exact absurd (hfits (by omega)) (Nat.not_lt.mpr (hleast u (by omega) hpos))

/-- A value has one minimal length: the one SIZE computes. -/
theorem IsLength.eq_size {v : U64} {t : Nat} (h : IsLength v t) : t = size v :=
  Nat.le_antisymm (h.le_of_isLength (isLength_size v)) ((isLength_size v).le_of_isLength h)

/-! ### The canonical bytes -/

@[simp] theorem wireBytes_length (v : U64) (t : Nat) : (wireBytes v t).length = t := by
  simp [wireBytes]

/-- Below the maximal form, masking the value to `8 - t` bits drops only what the shift by `t` puts above bit 7. -/
theorem encoderPrefix_eq_wireByte (v : U64) {t : Nat} (h8 : t ≤ 8) : encoderPrefix v t = wireByte v t 0 := by
  have ht : t ≠ 9 := by omega
  simp only [encoderPrefix, wireByte, if_true, if_neg ht]
  apply BitVec.eq_of_getLsbD_eq
  intro i hi
  have hword : i < 64 ∧ i - t < 64 ∧ i - (t - 1) < 64 := by omega
  have hmask : t ≤ i → i - t < 8 - t := by omega
  simp only [BitVec.getLsbD_extractLsb', BitVec.getLsbD_or, BitVec.getLsbD_shiftLeft, BitVec.getLsbD_and,
    BitVec.getLsbD_ofNat, Nat.testBit_or, Nat.testBit_shiftLeft, Nat.testBit_two_pow_sub_one, BitVec.testBit_toNat,
    ← decide_not, Nat.not_lt, ge_iff_le, Nat.zero_add]
  by_cases hti : t ≤ i
  · simp [hti, hi, hword, hmask hti]
  · simp [hti, hi, hword]

/-- The loop of R164 gives the bytes of the unified form of R168 after byte 0, in every form: for `t = 9` the first
shift is by 0. -/
theorem lowBytes_eq_wireBytes (v : U64) (t n : Nat) :
    lowBytes (v >>> (8 - t)) n = (List.range n).map fun i => wireByte v t (i + 1) := by
  apply List.ext_getElem
  · simp
  · intro i hi _
    have hshift : 8 - t + 8 * i = 8 * (i + 1) - min 8 t := by omega
    rw [lowBytes_getElem _ _ _ (by simpa using hi), BitVec.toNat_ushiftRight, ← Nat.shiftRight_add, hshift]
    simp [wireByte]

theorem encodeBytes_eq_cons (v : U64) :
    encodeBytes v = wireByte v (size v) 0 :: lowBytes (v >>> (8 - size v)) (size v - 1) := by
  simp only [encodeBytes]
  split_ifs with h9
  · simp [h9, wireByte]
  · have h8 : size v ≤ 8 := Nat.le_of_lt_succ (Nat.lt_of_le_of_ne (size_le v) h9)
    rw [encoderPrefix_eq_wireByte v h8]

theorem wireBytes_eq_cons (v : U64) {t : Nat} (h : 1 ≤ t) :
    wireBytes v t = wireByte v t 0 :: (List.range (t - 1)).map fun i => wireByte v t (i + 1) := by
  obtain ⟨n, rfl⟩ := Nat.exists_eq_add_of_le' h
  simp [wireBytes, List.range_succ_eq_map]

/-- The Encoder's bytes (R162 to R164) are those of the unified form (R168). -/
theorem encodeBytes_eq_wireBytes (v : U64) : encodeBytes v = wireBytes v (size v) := by
  rw [encodeBytes_eq_cons, lowBytes_eq_wireBytes, wireBytes_eq_cons v (size_pos v)]

/-! ### ENCODE's two steps -/

theorem step_prompt {s : State} (hp : s.prompt) : step s = (dueEvent s).result := by
  have hs : s.withMoves [] = s := by
    rw [State.withMoves, ← (show s.env.moves = [] from hp)]
  rw [step_due (.inr ⟨hp, rfl⟩), hs]

theorem step_encode {s : State} {v : U64} {cs : List Command} (hq : s.seq = .idle) (hp : s.prompt)
    (hc : s.env.cmds = ⟨0b10, v⟩ :: cs) : step s = .next (runEncode (accept 0b10 v (s.withProgram cs))) := by
  rw [step_prompt hp, dueEvent_command hq hc]
  rfl

@[simp] theorem runEncode_seq (s : State) : (runEncode s).seq = .awaitWrite := rfl

theorem runEncode_env (s : State) :
    (runEncode s).env =
      { s.env with requests := s.env.requests ++ [.writeAll (wireBytes s.operand (size s.operand))] } := by
  rw [runEncode_eq, encodeBytes_eq_wireBytes]
  rfl

/-- The second step of ENCODE is the sink's answer to the request of the first. -/
theorem stepsTo_encode {s t : State} {v : U64} {cs : List Command} (hq : s.seq = .idle) (hp : s.prompt)
    (hc : s.env.cmds = ⟨0b10, v⟩ :: cs)
    (ht : awaitWrite (runEncode (accept 0b10 v (s.withProgram cs))) = .next t) : stepsTo 2 s t := by
  refine ⟨_, step_encode hq hp hc, t, ?_, rfl⟩
  have hp' : (runEncode (accept 0b10 v (s.withProgram cs))).prompt := by
    rw [State.prompt, runEncode_env]
    exact hp
  rw [step_prompt hp', dueEvent_awaitWrite (runEncode_seq _), ht]

theorem awaitWrite_ok {s : State} {answers : List SinkAnswer} (h1 : 1 ≤ s.len.toNat) (h9 : s.len.toNat ≤ 9)
    (ha : s.env.sinkAnswers = .ok :: answers) :
    awaitWrite s =
      .next (respond (.ok (s.len.setWidth 64) none) (setSink (s.env.sink ++ s.bufBytes) answers s)) := by
  simp only [awaitWrite, Config.maxLen, if_pos (And.intro h1 h9), ha]

theorem awaitWrite_err {s : State} {e : IoErr} {answers : List SinkAnswer} (h1 : 1 ≤ s.len.toNat)
    (h9 : s.len.toNat ≤ 9) (ha : s.env.sinkAnswers = .err e :: answers) :
    awaitWrite s = .next (failWrite e answers s) := by
  simp only [awaitWrite, Config.maxLen, if_pos (And.intro h1 h9), ha]

@[simp] theorem failWrite_seq (e : IoErr) (answers : List SinkAnswer) (s : State) :
    (failWrite e answers s).seq = .done := rfl
@[simp] theorem failWrite_rsp (e : IoErr) (answers : List SinkAnswer) (s : State) :
    (failWrite e answers s).rsp = some (.ioError e) := rfl
@[simp] theorem failWrite_env (e : IoErr) (answers : List SinkAnswer) (s : State) :
    (failWrite e answers s).env =
      { s.env with sink := Config.freeSink s.freeIx, sinkAnswers := answers } := rfl

/-- Settles O17: the accepting step issues the one request, and the case split is on the sink's answer to it. -/
theorem encodeWritesExactlyTheCanonicalVarint : Obligations.EncodeWritesExactlyTheCanonicalVarint := by
  intro s v T cs a answers hT hq hp hc ha
  obtain rfl := hT.eq_size
  have hrun := fun t => stepsTo_encode (t := t) hq hp hc
  have hlen := runEncode_len (accept 0b10 v (s.withProgram cs))
  have hbytes := runEncode_bufBytes (accept 0b10 v (s.withProgram cs))
  have henv := runEncode_env (accept 0b10 v (s.withProgram cs))
  generalize runEncode (accept 0b10 v (s.withProgram cs)) = u at hrun hlen hbytes henv
  simp only [accept_operand, accept_env, State.withProgram, encodeBytes_eq_wireBytes] at hlen hbytes henv
  have h1 : 1 ≤ u.len.toNat := hlen ▸ size_pos v
  have h9 : u.len.toNat ≤ 9 := hlen ▸ size_le v
  have hanswers : u.env.sinkAnswers = a :: answers := by rw [henv, ha]
  cases a with
  | ok =>
    refine ⟨_, hrun _ (awaitWrite_ok h1 h9 hanswers), rfl, wireBytes_length v _, ?_, ?_, fun _ => ⟨?_, ?_, ?_⟩, nofun⟩
    · simp [henv]
    · simp [henv]
    · have hvalue : u.len.setWidth 64 = BitVec.ofNat 64 (size v) := by
        rw [← hlen, BitVec.ofNat_toNat]
      rw [respond_rsp, hvalue]
    · rw [respond_buf, setSink_buf, ← hbytes, State.bufBytes, hlen]
    · simp [henv, hbytes]
  | err e =>
    refine ⟨_, hrun _ (awaitWrite_err h1 h9 hanswers), failWrite_seq _ _ _, wireBytes_length v _, ?_, ?_, nofun, ?_⟩
    · simp [henv]
    · simp [henv]
    · rintro _ ⟨⟩
      exact failWrite_rsp e answers u

/-! ### The lanes of a transfer -/

theorem busWord_cons_toNat (b : Byte) (bs : List Byte) :
    (busWord (b :: bs)).toNat = b.toNat + 256 * (busWord bs).toNat := by
  have hb := b.isLt
  have hbs := (busWord bs).isLt
  have hpow : 2 ^ (8 * (b :: bs).length) = 256 * 2 ^ (8 * bs.length) := by
    rw [List.length_cons, Nat.mul_succ, Nat.pow_add, Nat.mul_comm]
  rw [busWord, BitVec.toNat_ofNat, Nat.mod_eq_of_lt]
  omega

theorem busLane_toNat {n : Nat} (w : BitVec n) (i : Nat) : (busLane w i).toNat = w.toNat / 2 ^ (8 * i) % 256 := by
  simp [busLane, Nat.shiftRight_eq_div_pow]

theorem busLane_cons_zero (b : Byte) (bs : List Byte) : busLane (busWord (b :: bs)) 0 = b := by
  have hb := b.isLt
  apply BitVec.eq_of_toNat_eq
  rw [busLane_toNat, busWord_cons_toNat]
  omega

/-- One byte in front moves every lane up by one. -/
theorem busLane_cons_succ (b : Byte) (bs : List Byte) (i : Nat) :
    busLane (busWord (b :: bs)) (i + 1) = busLane (busWord bs) i := by
  have hb := b.isLt
  apply BitVec.eq_of_toNat_eq
  have hpow : 2 ^ (8 * (i + 1)) = 256 * 2 ^ (8 * i) := by
    rw [Nat.mul_succ, Nat.pow_add, Nat.mul_comm]
  have hdrop : (b.toNat + 256 * (busWord bs).toNat) / 256 = (busWord bs).toNat := by omega
  rw [busLane_toNat, busLane_toNat, busWord_cons_toNat, hpow, ← Nat.div_div_eq_div_mul, hdrop]

/-- Settles O46, by induction on the bytes of the transfer. -/
theorem lanesCarryTheStreamInOrder : Obligations.LanesCarryTheStreamInOrder := by
  intro bytes
  induction bytes with
  | nil => nofun
  | cons b bs ih =>
    intro i h
    cases i with
    | zero => exact busLane_cons_zero b bs
    | succ i => exact (busLane_cons_succ b bs i).trans (ih i (Nat.lt_of_succ_lt_succ h))

end Sys2Proof.Machine
end

section
/-! PROOF. The codes of the two ports (spec/30_encoding.md R90, R93). -/

namespace Sys2Proof.Machine

/-- Settles O3: each op code decides the tests of `decodeCommand`. -/
theorem opCodesSelectTheFourOperations : Obligations.OpCodesSelectTheFourOperations :=
  fun _ => ⟨rfl, rfl, rfl, rfl⟩

theorem Status.ofBits_bits (st : Status) : Status.ofBits st.bits = .ok st := by
  cases st <;> rfl

@[simp] theorem Response.port_status (r : Response) : r.port.status = r.status.bits := by
  cases r <;> rfl

/-- Settles O45: a status shows as its own code, and reading that code gives the status back. -/
theorem responsePortCodes : Obligations.ResponsePortCodes := by
  refine ⟨fun _ _ => rfl, fun _ => rfl, fun _ => rfl, fun r => ?_, rfl⟩
  rw [Response.port_status, Status.ofBits_bits]

end Sys2Proof.Machine
end

section
/-! PROOF. The encodings of a value (spec/30_encoding.md R88). The bytes of a varint, read as one little-endian number (the
data word of R53), are the value shifted above the terminator: `varintWord`. So a sequence carries a value exactly when its
word is that number (`wireValue_eq_some_iff`), and the word determines the bytes. -/

namespace Sys2Proof.Machine

/-! ### The number that a byte sequence spells -/

/-- The data word of the bytes (R53) as a number: byte `i` weighs `2^(8i)`. -/
def wireWord (bs : List Byte) : Nat := (busWord bs).toNat

@[simp] theorem wireWord_nil : wireWord [] = 0 := rfl

@[simp] theorem wireWord_cons (b : Byte) (bs : List Byte) : wireWord (b :: bs) = b.toNat + 256 * wireWord bs :=
  busWord_cons_toNat b bs

theorem wireWord_lt (bs : List Byte) : wireWord bs < 2 ^ (8 * bs.length) := (busWord bs).isLt

theorem eq_of_wireWord_eq {as bs : List Byte} (hl : as.length = bs.length) (h : wireWord as = wireWord bs) :
    as = bs := by
  refine List.ext_getElem hl fun i ha hb => ?_
  rw [← lanesCarryTheStreamInOrder as i ha, ← lanesCarryTheStreamInOrder bs i hb]
  apply BitVec.eq_of_toNat_eq
  rw [busLane_toNat, busLane_toNat]
  exact congrArg (· / 2 ^ (8 * i) % 256) h

/-- Cutting a number into `n` bytes, low byte first, keeps its low `8n` bits. -/
theorem wireWord_map_range (m n : Nat) :
    wireWord ((List.range n).map fun i => BitVec.ofNat 8 (m >>> (8 * i))) = m % 2 ^ (8 * n) := by
  induction n generalizing m with
  | zero => simp [Nat.mod_one]
  | succ n ih =>
    have hshift (i : Nat) : m >>> (8 * (i + 1)) = (m / 256) >>> (8 * i) := by
      rw [Nat.mul_succ, Nat.add_comm, Nat.shiftRight_add, Nat.shiftRight_eq_div_pow m 8]
    have hpow : 2 ^ (8 * (n + 1)) = 256 * 2 ^ (8 * n) := by rw [Nat.mul_succ, Nat.pow_add, Nat.mul_comm]
    simp [List.range_succ_eq_map, Function.comp_def, hshift, ih, hpow, Nat.mod_mul]

/-! ### The terminator -/

theorem IsTrailingZeros.le_of_isTrailingZeros {b : Byte} {e f : Nat} (he : IsTrailingZeros b e)
    (hf : IsTrailingZeros b f) : e ≤ f := by
  obtain ⟨he8, hzeros, -⟩ := he
  obtain ⟨-, -, hone⟩ := hf
  by_contra hlt
  have hbit := hone (by omega)
  simp [hzeros f (by omega)] at hbit

/-- The scan of R10: the answer is the least position from `i` on with a 1, or the position past the last. -/
theorem tzFrom_spec (b : Byte) (fuel i : Nat) :
    tzFrom b i fuel ≤ i + fuel ∧ (∀ k, i ≤ k → k < tzFrom b i fuel → b.getLsbD k = false) ∧
    (tzFrom b i fuel < i + fuel → b.getLsbD (tzFrom b i fuel) = true) := by
  induction fuel generalizing i with
  | zero => refine ⟨Nat.le_refl _, ?_, ?_⟩ <;> simp only [tzFrom] <;> omega
  | succ fuel ih =>
    simp only [tzFrom]
    split
    · rename_i hbit
      exact ⟨by omega, fun k h1 h2 => by omega, fun _ => hbit⟩
    · rename_i hbit
      obtain ⟨hle, hzeros, hone⟩ := ih (i + 1)
      refine ⟨by omega, fun k hk hlt => ?_, fun hlt => hone (by omega)⟩
      rcases Nat.lt_or_eq_of_le hk with hk | rfl
      · exact hzeros k hk hlt
      · simpa using hbit

theorem isTrailingZeros_tz8 (b : Byte) : IsTrailingZeros b (tz8 b) := by
  obtain ⟨hle, hzeros, hone⟩ := tzFrom_spec b 8 0
  exact ⟨hle, fun i hi => hzeros i (Nat.zero_le i) hi, hone⟩

theorem tz8_eq_iff (b : Byte) (e : Nat) : tz8 b = e ↔ IsTrailingZeros b e := by
  constructor
  · rintro rfl
    exact isTrailingZeros_tz8 b
  · intro h
    exact Nat.le_antisymm ((isTrailingZeros_tz8 b).le_of_isTrailingZeros h)
      (h.le_of_isTrailingZeros (isTrailingZeros_tz8 b))

/-- Trailing zeros as arithmetic: of the byte's low bits, up to the terminator, the terminator alone is set; the zero byte
has none. -/
theorem isTrailingZeros_iff_mod (b : Byte) {e : Nat} (h8 : e ≤ 8) :
    IsTrailingZeros b e ↔ b.toNat % 2 ^ pad e = 2 ^ e % 2 ^ 8 := by
  have hbits : b.toNat % 2 ^ pad e = 2 ^ e % 2 ^ 8 ↔
      ∀ i, (i < pad e ∧ b.getLsbD i = true) ↔ (i < 8 ∧ e = i) := by
    have hbit (i : Nat) : (b.toNat % 2 ^ pad e).testBit i = (2 ^ e % 2 ^ 8).testBit i ↔
        ((i < pad e ∧ b.getLsbD i = true) ↔ (i < 8 ∧ e = i)) := by
      rw [Bool.eq_iff_iff, Nat.testBit_mod_two_pow, Nat.testBit_mod_two_pow, Nat.testBit_two_pow, BitVec.testBit_toNat]
      simp
    simp only [← hbit]
    exact ⟨fun h _ => h ▸ rfl, Nat.eq_of_testBit_eq⟩
  rw [hbits]
  have hpad (i : Nat) : i < pad e ↔ i < 8 ∧ i ≤ e := by simp only [pad]; omega
  simp only [hpad]
  constructor
  · rintro ⟨-, hzeros, hone⟩ i
    refine ⟨fun ⟨⟨hi8, hie⟩, hbit⟩ => ⟨hi8, ?_⟩, ?_⟩
    · by_contra hne
      simp [hzeros i (by omega)] at hbit
    · rintro ⟨hi8, rfl⟩
      exact ⟨⟨hi8, Nat.le_refl _⟩, hone hi8⟩
  · intro h
    refine ⟨h8, fun i hi => ?_, fun he => ((h e).mpr ⟨he, rfl⟩).2⟩
    by_contra hbit
    have hie := ((h i).mp ⟨⟨by omega, hi.le⟩, by simpa using hbit⟩).2
    omega

/-! ### The value that a byte sequence carries -/

theorem payloadBits_toNat (b : Byte) {e : Nat} (h8 : e ≤ 8) : (payloadBits b e).toNat = b.toNat / 2 ^ pad e := by
  have hb := b.isLt
  rcases Nat.lt_or_eq_of_le h8 with he | rfl
  · rw [payloadBits, if_neg he.ne, BitVec.toNat_ushiftRight, BitVec.toNat_setWidth, Nat.shiftRight_eq_div_pow,
      Nat.mod_eq_of_lt (by omega), pad, Nat.min_eq_right he]
  · simp [payloadBits, pad]
    omega

/-- The sum of R185 is the extra bytes' number, shifted, as far as 64 bits hold it. -/
theorem foldFrom_toNat {p i : Nat} (h : p ≤ 8 * i) (bs : List Byte) :
    (foldFrom p i bs).toNat = wireWord bs * 2 ^ (8 * i - p) % 2 ^ 64 := by
  induction bs generalizing i with
  | nil => simp [foldFrom]
  | cons b bs ih =>
    have hb := b.isLt
    have hpow : 2 ^ (8 * (i + 1) - p) = 256 * 2 ^ (8 * i - p) := by
      rw [show 8 * (i + 1) - p = 8 + (8 * i - p) by omega, Nat.pow_add]
    rw [foldFrom, BitVec.toNat_add, ih (by omega), BitVec.toNat_shiftLeft, BitVec.toNat_setWidth, Nat.shiftLeft_eq,
      Nat.mod_eq_of_lt (a := b.toNat) (by omega), hpow, ← Nat.add_mod, wireWord_cons]
    congr 1
    ring

theorem fold_toNat (b : Byte) {bs : List Byte} (h8 : bs.length ≤ 8) :
    (fold (payloadBits b bs.length) bs.length bs).toNat = wireWord (b :: bs) / 2 ^ pad bs.length := by
  have hb := b.isLt
  have hp : pad bs.length ≤ 8 := Nat.min_le_left _ _
  have hsplit : 2 ^ (8 - pad bs.length) * 2 ^ pad bs.length = 256 := by
    rw [← Nat.pow_add, Nat.sub_add_cancel hp]
  have hpayload : b.toNat / 2 ^ pad bs.length < 2 ^ (8 - pad bs.length) := by
    rw [Nat.div_lt_iff_lt_mul (Nat.two_pow_pos _), hsplit]
    exact hb
  have hfits : wireWord bs * 2 ^ (8 - pad bs.length) < 2 ^ 64 := by
    calc wireWord bs * 2 ^ (8 - pad bs.length)
        < 2 ^ (8 * bs.length) * 2 ^ (8 - pad bs.length) :=
          Nat.mul_lt_mul_of_pos_right (wireWord_lt bs) (Nat.two_pow_pos _)
      _ = 2 ^ (8 * bs.length + (8 - pad bs.length)) := (Nat.pow_add ..).symm
      _ ≤ 2 ^ 64 := Nat.pow_le_pow_right (by decide) (by simp only [pad]; omega)
  calc (fold (payloadBits b bs.length) bs.length bs).toNat
      = b.toNat / 2 ^ pad bs.length ||| wireWord bs * 2 ^ (8 - pad bs.length) := by
        rw [fold, BitVec.toNat_or, payloadBits_toNat b h8, foldFrom_toNat (i := 1) (by omega), Nat.mul_one,
          Nat.mod_eq_of_lt hfits]
    _ = b.toNat / 2 ^ pad bs.length + wireWord bs * 2 ^ (8 - pad bs.length) := by
        rw [Nat.or_comm, ← Nat.shiftLeft_eq, ← Nat.shiftLeft_add_eq_or_of_lt hpayload, Nat.add_comm]
    _ = wireWord (b :: bs) / 2 ^ pad bs.length := by
        rw [wireWord_cons, ← Nat.add_mul_div_right _ _ (Nat.two_pow_pos _), Nat.mul_assoc, hsplit, Nat.mul_comm]

/-- A byte sequence carries a value when as many bytes follow the first as it declares, and then the value is their number
without the terminator and what is below it. -/
theorem wireValue_cons_eq_some_iff (b : Byte) (bs : List Byte) (v : U64) :
    wireValue (b :: bs) = some v ↔
      IsTrailingZeros b bs.length ∧ v.toNat = wireWord (b :: bs) / 2 ^ pad bs.length := by
  have hlen := toNat_ofNat_length (tz8 b) (Nat.le_succ_of_le (tz8_le b))
  simp only [wireValue, analyze_eq, hlen, Option.ite_none_right_eq_some, Option.some.injEq]
  rw [eq_comm, tz8_eq_iff]
  refine and_congr_right fun htz => ?_
  rw [(tz8_eq_iff b _).mpr htz, ← fold_toNat b htz.1, BitVec.toNat_inj, eq_comm]

/-- The number that the `t` bytes of a varint of `v` spell: `v` above the terminator bit. For `t = 9` the first byte has no
bit 8 for a terminator, and is 0 (R162). -/
def varintWord (v : U64) (t : Nat) : Nat := v.toNat * 2 ^ min 8 t + 2 ^ (t - 1) % 2 ^ 8

theorem terminator_lt {t : Nat} (h1 : 1 ≤ t) : 2 ^ (t - 1) % 2 ^ 8 < 2 ^ min 8 t := by
  rcases Nat.le_total 8 t with h | h
  · rw [Nat.min_eq_left h]
    exact Nat.mod_lt _ (Nat.two_pow_pos 8)
  · rw [Nat.min_eq_right h]
    exact (Nat.mod_le _ _).trans_lt (Nat.pow_lt_pow_right (by decide) (by omega))

theorem varintWord_div (v : U64) {t : Nat} (h1 : 1 ≤ t) : varintWord v t / 2 ^ min 8 t = v.toNat := by
  rw [varintWord, Nat.mul_comm, Nat.mul_add_div (Nat.two_pow_pos _), Nat.div_eq_of_lt (terminator_lt h1), Nat.add_zero]

theorem varintWord_mod (v : U64) {t : Nat} (h1 : 1 ≤ t) : varintWord v t % 2 ^ min 8 t = 2 ^ (t - 1) % 2 ^ 8 := by
  rw [varintWord, Nat.mul_comm, Nat.mul_add_mod, Nat.mod_eq_of_lt (terminator_lt h1)]

/-- A length has room for the number of a varint just when its payload bits have room for the value. -/
theorem varintWord_lt_iff (v : U64) {t : Nat} (h1 : 1 ≤ t) :
    varintWord v t < 2 ^ (8 * t) ↔ v.toNat < 2 ^ (8 * t - min 8 t) := by
  rw [← varintWord_div v h1, Nat.div_lt_iff_lt_mul (Nat.two_pow_pos _), ← Nat.pow_add, Nat.sub_add_cancel (by omega)]

/-- A byte sequence carries `v` exactly when its number is the one of a varint of `v`. -/
theorem wireValue_eq_some_iff (bs : List Byte) (v : U64) :
    wireValue bs = some v ↔ 1 ≤ bs.length ∧ bs.length ≤ 9 ∧ wireWord bs = varintWord v bs.length := by
  cases bs with
  | nil => simp [wireValue]
  | cons b bs =>
    have hlow : wireWord (b :: bs) % 2 ^ pad bs.length = b.toNat % 2 ^ pad bs.length := by
      have hdvd : 2 ^ pad bs.length ∣ 256 := Nat.pow_dvd_pow 2 (Nat.min_le_left 8 (bs.length + 1))
      rw [wireWord_cons, Nat.add_mod, Nat.mod_eq_zero_of_dvd (hdvd.mul_right _), Nat.add_zero, Nat.mod_mod]
    have hword : wireWord (b :: bs) = varintWord v (bs.length + 1) ↔
        b.toNat % 2 ^ pad bs.length = 2 ^ bs.length % 2 ^ 8 ∧ v.toNat = wireWord (b :: bs) / 2 ^ pad bs.length := by
      rw [← hlow]
      constructor
      · intro h
        rw [h]
        exact ⟨varintWord_mod v (by omega), (varintWord_div v (by omega)).symm⟩
      · rintro ⟨hmod, hdiv⟩
        rw [varintWord, hdiv, Nat.add_sub_cancel, ← hmod]
        exact (Nat.div_add_mod' ..).symm
    rw [wireValue_cons_eq_some_iff, List.length_cons, hword]
    constructor
    · rintro ⟨htz, hv⟩
      have h8 := htz.1
      exact ⟨by omega, by omega, (isTrailingZeros_iff_mod b h8).mp htz, hv⟩
    · rintro ⟨-, h9, hmod, hv⟩
      exact ⟨(isTrailingZeros_iff_mod b (by omega)).mpr hmod, hv⟩

/-! ### The varint of each length -/

/-- The payload bits of length `t`: 7 for each byte, and all 64 of a value when `t = 9`. -/
theorem fits_iff (v : U64) {t : Nat} (h9 : t ≤ 9) :
    v.toNat < 2 ^ (8 * t - min 8 t) ↔ (t ≤ 8 → v.toNat < 2 ^ (7 * t)) := by
  rcases Nat.lt_or_eq_of_le h9 with h | rfl
  · rw [show 8 * t - min 8 t = 7 * t by omega]
    exact ⟨fun hv _ => hv, fun hv => hv (Nat.le_of_lt_succ h)⟩
  · exact ⟨fun _ h8 => absurd h8 (by decide), fun _ => v.isLt⟩

/-- Byte `i` of the unified form (R168) is byte `i` of the varint's number. -/
theorem wireByte_eq_ofNat_varintWord (v : U64) {t : Nat} (h1 : 1 ≤ t) (h9 : t ≤ 9) (i : Nat) :
    wireByte v t i = BitVec.ofNat 8 (varintWord v t >>> (8 * i)) := by
  unfold wireByte
  split_ifs with hi ht
  · subst hi ht
    apply BitVec.eq_of_toNat_eq
    simp [varintWord]
  · have h8 : t ≤ 8 := by omega
    have hterm : 1 <<< (t - 1) = 2 ^ (t - 1) := Nat.one_shiftLeft _
    have hlt : 2 ^ (t - 1) < 2 ^ t := Nat.pow_lt_pow_right (by decide) (by omega)
    have hmod : 2 ^ (t - 1) % 2 ^ 8 = 2 ^ (t - 1) := Nat.mod_eq_of_lt (Nat.pow_lt_pow_right (by decide) (by omega))
    rw [hi, hterm, ← Nat.shiftLeft_add_eq_or_of_lt hlt, varintWord, Nat.min_eq_right h8, hmod, Nat.shiftLeft_eq,
      Nat.mul_zero, Nat.shiftRight_zero]
  · rw [← varintWord_div v h1, ← Nat.shiftRight_eq_div_pow, ← Nat.shiftRight_add, Nat.add_sub_cancel' (by omega)]

/-- The unified form carries its value in every length that has room for it. -/
theorem wireValue_wireBytes {v : U64} {t : Nat} (h1 : 1 ≤ t) (h9 : t ≤ 9) (hfits : t ≤ 8 → v.toNat < 2 ^ (7 * t)) :
    wireValue (wireBytes v t) = some v := by
  rw [wireValue_eq_some_iff, wireBytes_length]
  refine ⟨h1, h9, ?_⟩
  rw [wireBytes, List.map_congr_left fun i _ => wireByte_eq_ofNat_varintWord v h1 h9 i, wireWord_map_range,
    Nat.mod_eq_of_lt ((varintWord_lt_iff v h1).mpr ((fits_iff v h9).mpr hfits))]

/-- Sequences of one length that carry one value are equal: they spell the same number. -/
theorem eq_of_wireValue_eq {as bs : List Byte} {v : U64} (hl : as.length = bs.length) (ha : wireValue as = some v)
    (hb : wireValue bs = some v) : as = bs := by
  obtain ⟨-, -, haw⟩ := (wireValue_eq_some_iff as v).mp ha
  obtain ⟨-, -, hbw⟩ := (wireValue_eq_some_iff bs v).mp hb
  exact eq_of_wireWord_eq hl (by rw [haw, hbw, hl])

/-- What a byte sequence carries fits its length. -/
theorem fits_of_wireValue {bs : List Byte} {v : U64} (h : wireValue bs = some v) :
    bs.length ≤ 8 → v.toNat < 2 ^ (7 * bs.length) := by
  obtain ⟨h1, h9, hword⟩ := (wireValue_eq_some_iff bs v).mp h
  rw [← fits_iff v h9, ← varintWord_lt_iff v h1, ← hword]
  exact wireWord_lt bs

/-- Settles O26: a value's word determines its bytes, and the word has room in a length just when the value has. -/
theorem oneEncodingOfEachLength : Obligations.OneEncodingOfEachLength := by
  rintro v n ⟨h1, h9, hfits, hleast⟩
  refine ⟨fun T hn hT => ?_, fun bs hl hbs => ?_, wireValue_wireBytes h1 h9 hfits⟩
  · have hwire : wireValue (wireBytes v T) = some v :=
      wireValue_wireBytes (h1.trans hn) hT fun h8 =>
        (hfits (hn.trans h8)).trans_le (Nat.pow_le_pow_right (by decide) (Nat.mul_le_mul_left 7 hn))
    refine ⟨wireBytes v T, ⟨wireBytes_length v T, hwire⟩, fun bs ⟨hbl, hbs⟩ => ?_⟩
    exact eq_of_wireValue_eq (by rw [hbl, wireBytes_length]) hbs hwire
  · obtain ⟨hb1, hb9, -⟩ := (wireValue_eq_some_iff bs v).mp hbs
    have hshort : bs.length < n := by omega
    exact absurd (fits_of_wireValue hbs (by omega)) (Nat.not_lt.mpr (hleast _ hshort hb1))

end Sys2Proof.Machine
end

section
/-! PROOF. The Prefix Analyzer (spec/40_prefix_analyzer.md R121 to R125): `Analyze` splits a byte at its terminator, so a
pair of payload and count is its answer exactly when the payload, the terminator and the zeros below it make up the byte. -/

namespace Sys2Proof.Machine

/-! ### Analyze -/

/-- The two readings of the shift at the zero byte agree: nothing of a byte is left above bit 7 (R123). -/
theorem byte_div_two_pow_pad (b : Byte) {e : Nat} (h8 : e ≤ 8) : b.toNat / 2 ^ pad e = b.toNat / 2 ^ (e + 1) := by
  rcases Nat.lt_or_eq_of_le h8 with he | rfl
  · rw [pad, Nat.min_eq_right he]
  · rw [pad, Nat.min_eq_left (Nat.le_succ 8), Nat.div_eq_of_lt b.isLt,
      Nat.div_eq_of_lt (b.isLt.trans (by decide))]

theorem analyze_eq_ok_iff (b : Byte) (p : U64) (e : BitVec 4) :
    analyze b = .ok p e ↔ IsTrailingZeros b e.toNat ∧ p.toNat = b.toNat / 2 ^ (e.toNat + 1) := by
  have hcount : BitVec.ofNat 4 (tz8 b) = e ↔ IsTrailingZeros b e.toNat := by
    rw [← tz8_eq_iff, ← BitVec.toNat_inj, toNat_ofNat_length _ (Nat.le_succ_of_le (tz8_le b))]
  rw [analyze_eq, Analysis.ok.injEq, hcount, and_comm]
  refine and_congr_right fun htz => ?_
  rw [(tz8_eq_iff b _).mpr htz, eq_comm, ← BitVec.toNat_inj, payloadBits_toNat b htz.1, byte_div_two_pow_pad b htz.1]

/-- For a count of at most 7, `Analyze` is division with remainder: the payload is the quotient, the terminator the
remainder. -/
theorem analyze_eq_ok_iff_toNat_eq (b : Byte) (p : U64) {e : BitVec 4} (h7 : e.toNat ≤ 7) :
    analyze b = .ok p e ↔ b.toNat = p.toNat * 2 ^ (e.toNat + 1) + 2 ^ e.toNat := by
  have hterm : 2 ^ e.toNat < 2 ^ (e.toNat + 1) := Nat.pow_lt_pow_right (by decide) (Nat.lt_succ_self _)
  have hbyte : 2 ^ e.toNat % 2 ^ 8 = 2 ^ e.toNat := Nat.mod_eq_of_lt (Nat.pow_lt_pow_right (by decide) (by omega))
  rw [analyze_eq_ok_iff, isTrailingZeros_iff_mod b (Nat.le_succ_of_le h7), pad,
    Nat.min_eq_right (Nat.succ_le_succ h7), hbyte, and_comm, eq_comm (a := p.toNat),
    Nat.div_mod_unique (Nat.two_pow_pos _), and_iff_left hterm, eq_comm, Nat.mul_comm, Nat.add_comm]

/-- A payload of `7 - e` bits above the terminator is what a byte has room for. -/
theorem payload_add_terminator_lt_iff (p : Nat) {e : Nat} (h7 : e ≤ 7) :
    p * 2 ^ (e + 1) + 2 ^ e < 2 ^ 8 ↔ p < 2 ^ (7 - e) := by
  have hsplit : 2 ^ (7 - e) * 2 ^ (e + 1) = 2 ^ 8 := by
    rw [← Nat.pow_add]
    congr 1
    omega
  have hterm : 2 ^ e < 2 ^ (e + 1) := Nat.pow_lt_pow_right (by decide) (Nat.lt_succ_self e)
  rw [← hsplit, ← Nat.div_lt_iff_lt_mul (Nat.two_pow_pos _), Nat.mul_comm, Nat.mul_add_div (Nat.two_pow_pos _),
    Nat.div_eq_of_lt hterm, Nat.add_zero]

theorem isTrailingZeros_eight_iff (b : Byte) : IsTrailingZeros b 8 ↔ b = 0 := by
  rw [isTrailingZeros_iff_mod b (Nat.le_refl 8), pad, Nat.min_eq_left (Nat.le_succ 8), Nat.mod_self,
    Nat.mod_eq_of_lt b.isLt]
  exact BitVec.toNat_inj (y := 0)

/-- The zero byte alone has the count 8, and its payload is 0 (R123). -/
theorem analyze_eq_ok_eight_iff (b : Byte) (p : U64) : analyze b = .ok p 8 ↔ p = 0 ∧ b = 0 := by
  have hcount : (8 : BitVec 4).toNat = 8 := rfl
  rw [analyze_eq_ok_iff, hcount, isTrailingZeros_eight_iff, and_comm]
  refine and_congr_left ?_
  rintro rfl
  exact BitVec.toNat_inj (y := 0)

/-- Settles O7: `Analyze` is division by the terminator's weight, and a payload is in range just when its byte fits 8 bits. -/
theorem analyzeIsABijection : Obligations.AnalyzeIsABijection := by
  refine ⟨fun b => ?_, fun p e h7 hp => ?_, (analyze_eq_ok_eight_iff 0 0).mpr ⟨rfl, rfl⟩⟩
  · obtain ⟨p, e, hok, -, h8⟩ := analyze_cases b
    refine ⟨p, e, hok, h8, fun h7 => ?_, fun he => ?_⟩
    · have hb := (analyze_eq_ok_iff_toNat_eq b p h7).mp hok
      exact ⟨(payload_add_terminator_lt_iff _ h7).mp (hb ▸ b.isLt), hb⟩
    · obtain rfl : e = 8 := BitVec.eq_of_toNat_eq he
      exact (analyze_eq_ok_eight_iff b p).mp hok
  · have hfits := (payload_add_terminator_lt_iff _ h7).mpr hp
    exact ⟨BitVec.ofNatLT _ hfits, (analyze_eq_ok_iff_toNat_eq _ p h7).mpr rfl⟩

/-! ### PREFIX -/

theorem prefixOperand_eq_ofNat (x : U64) : prefixOperand x = BitVec.ofNat 8 x.toNat :=
  BitVec.eq_of_toNat_eq (by simp [prefixOperand])

/-- PREFIX in IDLE: acceptance and the answer of `Analyze` are all it does (R120). -/
theorem exec_prefixOp_idle (x : U64) {s : State} (hq : s.seq = .idle) {p : U64} {e : BitVec 4}
    (ha : analyze (prefixOperand x) = .ok p e) :
    exec (.prefixOp x) s = .next (respond (.ok p (some e)) (accept 0b00 x s)) := by
  simp only [exec, execPrefix, whenIdle_idle _ hq, runPrefix, accept_operand, ha]

/-- Settles O6: the answer of `Analyze` for the operand's low byte, which no state enters. -/
theorem prefixAnswersPayloadAndExtra : Obligations.PrefixAnswersPayloadAndExtra := by
  intro x
  obtain ⟨p, e, hok, -, -⟩ := analyze_cases (prefixOperand x)
  obtain ⟨htz, hp⟩ := (analyze_eq_ok_iff _ p e).mp hok
  rw [prefixOperand_eq_ofNat] at htz hp
  refine ⟨e.toNat, p, htz, hp, fun s hq => ?_⟩
  rw [exec_prefixOp_idle x hq hok, BitVec.ofNat_toNat, BitVec.setWidth_eq]
  rfl

end Sys2Proof.Machine
end

section
/-! PROOF. The Size Calculator (spec/41_size_calculator.md R140 to R145): every form of `Size` in the spec is read off one
comparison, that the size passes a length exactly when the value exceeds the length's capacity. -/

namespace Sys2Proof.Machine

/-! ### Size -/

/-- The comparators of R144: the size passes a length just when the value exceeds what the length holds. -/
theorem lt_size_iff (v : U64) {k : Nat} (h1 : 1 ≤ k) (h8 : k ≤ 8) : k < size v ↔ 2 ^ (7 * k) ≤ v.toNat := by
  obtain ⟨-, -, hfits, hleast⟩ := isLength_size v
  refine ⟨fun hk => hleast k hk h1, fun hv => ?_⟩
  by_contra hk
  have hpow : 2 ^ (7 * size v) ≤ 2 ^ (7 * k) := Nat.pow_le_pow_right (by decide) (by omega)
  exact absurd (hfits (by omega)) (Nat.not_lt.mpr (hpow.trans hv))

theorem size_mono {v w : U64} (h : v.toNat ≤ w.toNat) : size v ≤ size w := by
  by_contra hlt
  have hle := size_le v
  have hv := (lt_size_iff v (size_pos w) (by omega)).mp (Nat.lt_of_not_le hlt)
  exact absurd ((lt_size_iff w (size_pos w) (by omega)).mpr (hv.trans h)) (Nat.lt_irrefl _)

/-- The values of one length: those past the capacity of the length before, up to the length's own. -/
theorem size_eq_iff (v : U64) {t : Nat} (h1 : 1 ≤ t) (h9 : t ≤ 9) :
    size v = t ↔ (if t = 1 then 0 else 2 ^ (7 * (t - 1))) ≤ v.toNat ∧ v.toNat < 2 ^ (8 * t - min 8 t) := by
  have hpos := size_pos v
  have hlow : (if t = 1 then 0 else 2 ^ (7 * (t - 1))) ≤ v.toNat ↔ t ≤ size v := by
    split_ifs with ht
    · omega
    · rw [← lt_size_iff v (by omega) (by omega)]
      omega
  have hhigh : v.toNat < 2 ^ (8 * t - min 8 t) ↔ size v ≤ t := by
    rw [fits_iff v h9]
    rcases Nat.lt_or_eq_of_le h9 with h | rfl
    · rw [← Nat.not_le, ← lt_size_iff v h1 (Nat.le_of_lt_succ h)]
      omega
    · exact iff_of_true (fun h => absurd h (by decide)) (size_le v)
  rw [hlow, hhigh]
  omega

/-! ### SIZE -/

/-- SIZE in IDLE: acceptance and the size of the operand are all it does (R140). -/
theorem exec_size_idle (v : U64) {s : State} (hq : s.seq = .idle) :
    exec (.size v) s = .next (respond (.ok (BitVec.ofNat 64 (size v)) none) (accept 0b01 v s)) := by
  simp only [exec, execSize, whenIdle_idle _ hq, runSize, accept_operand]

theorem toNat_ofNat_value {n : Nat} (h : n ≤ 9) : (BitVec.ofNat 64 n).toNat = n := by
  rw [BitVec.toNat_ofNat, Nat.mod_eq_of_lt (by omega)]

/-- SIZE answers a length just when it is the size: lengths differ as response values too. -/
theorem exec_size_answers_iff (v : U64) {s : State} (hq : s.seq = .idle) {n : Nat} (h9 : n ≤ 9) :
    (∃ t, exec (.size v) s = .next t ∧ t.rsp = some (.ok (BitVec.ofNat 64 n) none)) ↔ size v = n := by
  rw [exec_size_idle v hq]
  constructor
  · rintro ⟨_, ⟨⟩, hrsp⟩
    have hvalue : BitVec.ofNat 64 (size v) = BitVec.ofNat 64 n := by simpa using hrsp
    rw [← toNat_ofNat_value (size_le v), hvalue, toNat_ofNat_value h9]
  · rintro rfl
    exact ⟨_, rfl, respond_rsp _ _⟩

/-- Settles O9: the model's size is the minimal length, and no state enters it. -/
theorem sizeAnswersTheMinimalLength : Obligations.SizeAnswersTheMinimalLength :=
  fun v => ⟨size v, isLength_size v, fun _ hq => exec_size_idle v hq⟩

/-- Settles O10: the order of the two sizes is the order of the two answers. -/
theorem sizeIsMonotonic : Obligations.SizeIsMonotonic := by
  intro v w s hq hle
  refine ⟨_, _, _, _, exec_size_idle v hq, exec_size_idle w hq, respond_rsp _ _, respond_rsp _ _, ?_⟩
  rw [toNat_ofNat_value (size_le v), toNat_ofNat_value (size_le w)]
  exact size_mono hle

/-- Settles O11: each row of the table holds the capacities at its length's two ends. -/
theorem sizeBoundaryTable : Obligations.SizeBoundaryTable := by
  intro s v hq row hrow
  have hends : 1 ≤ row.1 ∧ row.1 ≤ 9 ∧ row.2.1 = (if row.1 = 1 then 0 else 2 ^ (7 * (row.1 - 1))) ∧
      row.2.2 + 1 = 2 ^ (8 * row.1 - min 8 row.1) := by
    revert row
    decide
  obtain ⟨h1, h9, hlow, hhigh⟩ := hends
  rw [exec_size_answers_iff v hq h9, size_eq_iff v h1 h9, hlow, ← hhigh, Nat.lt_succ_iff]

/-! ### The comparator form -/

/-- The test of R144, whether any bit from position `n` on is set. -/
theorem ushiftRight_ne_zero_iff (v : U64) (n : Nat) : v >>> n ≠ 0 ↔ 2 ^ n ≤ v.toNat := by
  rw [Ne, ← BitVec.toNat_inj, BitVec.toNat_ushiftRight, Nat.shiftRight_eq_div_pow, ← Nat.not_lt]
  exact not_congr (Nat.div_eq_zero_iff_lt (Nat.two_pow_pos n))

/-- The tests that succeed are those below the size, so that their number is one less than it. -/
theorem comparatorSum_eq_size (v : U64) :
    1 + (∑ k ∈ Finset.Icc 1 8, if v >>> (7 * k) ≠ 0 then 1 else 0) = size v := by
  have hpassed : {k ∈ Finset.Icc 1 8 | v >>> (7 * k) ≠ 0} = Finset.Ico 1 (size v) := by
    ext k
    have hle := size_le v
    rw [Finset.mem_filter, Finset.mem_Icc, Finset.mem_Ico, ushiftRight_ne_zero_iff]
    constructor
    · rintro ⟨⟨h1, h8⟩, hv⟩
      exact ⟨h1, (lt_size_iff v h1 h8).mpr hv⟩
    · rintro ⟨h1, hk⟩
      have h8 : k ≤ 8 := by omega
      exact ⟨⟨h1, h8⟩, (lt_size_iff v h1 h8).mp hk⟩
  rw [← Finset.card_filter, hpassed, Nat.card_Ico, Nat.add_sub_cancel' (size_pos v)]

/-- Settles O12: the sum is the size, and each test is a comparison with a power that grows with `k`. -/
theorem sizeComparatorForm : Obligations.SizeComparatorForm := by
  intro v
  rw [comparatorSum_eq_size]
  refine ⟨fun s hq => (exec_size_answers_iff v hq (size_le v)).mpr rfl, fun k => ushiftRight_ne_zero_iff v (7 * k),
    fun j k hjk hk => ?_, fun hv => ?_⟩
  · rw [ushiftRight_ne_zero_iff] at hk ⊢
    exact (Nat.pow_le_pow_right (by decide) (by omega)).trans hk
  · exact Nat.le_antisymm (size_le v) ((lt_size_iff v (k := 8) (by decide) (by decide)).mpr hv)

/-! ### The bit-length form -/

/-- The comparison in bit lengths: a length `k` holds `7k` bits. -/
theorem lt_size_iff_lt_bitLength (v : U64) {k : Nat} (h1 : 1 ≤ k) (h8 : k ≤ 8) :
    k < size v ↔ 7 * k < v.toNat.size := by
  rw [lt_size_iff v h1 h8, Nat.lt_size]

/-- Settles O13: in each range of bit lengths, the comparisons next to the claimed length leave no other size. -/
theorem sizeBitLengthForm : Obligations.SizeBitLengthForm := by
  intro s v hq
  have hpos := size_pos v
  have hle := size_le v
  refine ⟨_, size v, exec_size_idle v hq, respond_rsp _ _, fun h7 => ?_, fun h8 h56 => ?_, fun h57 => ?_⟩
  · have hone := lt_size_iff_lt_bitLength v (k := 1) (by decide) (by decide)
    omega
  · have hbelow := lt_size_iff_lt_bitLength v (k := (v.toNat.size + 6) / 7 - 1) (by omega) (by omega)
    have hfits := lt_size_iff_lt_bitLength v (k := (v.toNat.size + 6) / 7) (by omega) (by omega)
    omega
  · have height := lt_size_iff_lt_bitLength v (k := 8) (by decide) (by decide)
    omega

end Sys2Proof.Machine
end

section
/-! PROOF. The Encoder's accepting step (spec/42_encoder.md R160, R168): what `runEncode` puts into BUF, and what it leaves
as it was. -/

namespace Sys2Proof.Machine

/-! ### The accepting step's effect -/

@[simp] theorem runEncode_op (s : State) : (runEncode s).op = s.op := rfl
@[simp] theorem runEncode_operand (s : State) : (runEncode s).operand = s.operand := rfl
@[simp] theorem runEncode_pay (s : State) : (runEncode s).pay = s.pay := rfl
@[simp] theorem runEncode_extra (s : State) : (runEncode s).extra = s.extra := rfl
@[simp] theorem runEncode_rsp (s : State) : (runEncode s).rsp = s.rsp := rfl

theorem wireBytes_getElem? (v : U64) {t i : Nat} (h : i < t) : (wireBytes v t)[i]? = some (wireByte v t i) := by
  rw [wireBytes, List.getElem?_map, List.getElem?_range h, Option.map_some]

theorem State.bufBytes_getElem? (s : State) {i : Nat} (h : i < s.len.toNat) : s.bufBytes[i]? = s.buf.toList[i]? :=
  List.getElem?_take_of_lt h

/-- Below LEN, BUF holds the bytes of the unified form (R168). -/
theorem runEncode_buf_getElem? (s : State) {i : Nat} (h : i < size s.operand) :
    (runEncode s).buf.toList[i]? = some (wireByte s.operand (size s.operand) i) := by
  have hlen : i < (runEncode s).len.toNat := by rwa [runEncode_len]
  rw [← State.bufBytes_getElem? _ hlen, runEncode_bufBytes, encodeBytes_eq_wireBytes, wireBytes_getElem? _ h]

/-! ### ENCODE -/

/-- ENCODE in IDLE: acceptance and `runEncode` are all its first step does (R160). -/
theorem exec_encode_idle (v : U64) {s : State} (hq : s.seq = .idle) :
    exec (.encode v) s = .next (runEncode (accept 0b10 v s)) := by
  simp only [exec, execEncode, whenIdle_idle _ hq]

theorem IsLength.wireValue_wireBytes {v : U64} {t : Nat} (h : IsLength v t) : wireValue (wireBytes v t) = some v := by
  obtain ⟨h1, h9, hfits, -⟩ := h
  exact Machine.wireValue_wireBytes h1 h9 hfits

/-- Settles O14: the minimal length is the model's size, and each clause is one field of `runEncode` after acceptance. -/
theorem encodeFillsTheBufferAndWrites : Obligations.EncodeFillsTheBufferAndWrites := by
  intro v T s hT hq
  have hvalue := hT.wireValue_wireBytes
  obtain rfl := hT.eq_size
  have hlen := runEncode_len (accept 0b10 v s)
  have hbuf := fun i => runEncode_buf_getElem? (accept 0b10 v s) (i := i)
  have henv := runEncode_env (accept 0b10 v s)
  simp only [accept_operand, accept_env] at hlen hbuf henv
  exact ⟨_, exec_encode_idle v hq, runEncode_seq _, runEncode_op _, runEncode_operand _, hlen, hbuf, henv,
    runEncode_pay _, runEncode_extra _, runEncode_rsp _, hvalue⟩

end Sys2Proof.Machine
end

section
/-! PROOF. DECODE (spec/43_decoder.md R181 to R189): its accepting step, the source's answers in its two waiting phases, and
its run from IDLE to DONE, which takes exactly one varint off the source and answers the value it carries. -/

namespace Sys2Proof.Machine

/-! ### The exact sum of the fold -/

theorem wireWord_eq_sum (bs : List Byte) :
    wireWord bs = ∑ i ∈ Finset.range bs.length, (bs.getD i 0).toNat * 2 ^ (8 * i) := by
  induction bs with
  | nil => rfl
  | cons b bs ih =>
    have hshift (m i : Nat) : m * 2 ^ (8 * (i + 1)) = 256 * (m * 2 ^ (8 * i)) := by
      rw [Nat.mul_succ, Nat.pow_add]
      ring
    rw [wireWord_cons, ih, List.length_cons, Finset.sum_range_succ', Finset.mul_sum, Nat.add_comm]
    simp [hshift]

/-- The offsets of R185 put the extra bytes side by side, above the `8 - pad` payload bits of the first byte. -/
theorem extraSum_eq_wireWord_mul (bs : List Byte) : extraSum bs = wireWord bs * 2 ^ (8 - pad bs.length) := by
  rw [extraSum, wireWord_eq_sum, Finset.sum_mul]
  refine Finset.sum_congr rfl fun i _ => ?_
  have hoffset : 8 * (i + 1) - min 8 (bs.length + 1) = 8 * i + (8 - pad bs.length) := by
    simp only [pad]
    omega
  rw [hoffset, Nat.pow_add, Nat.mul_assoc]

/-- The Decoder's fold is the payload OR the sum in exact arithmetic, as far as 64 bits hold it. -/
theorem fold_eq_or_extraSum (p : U64) (bs : List Byte) :
    fold p bs.length bs = p ||| BitVec.ofNat 64 (extraSum bs) := by
  have hpad : pad bs.length ≤ 8 * 1 := Nat.min_le_left _ _
  have hsum : foldFrom (pad bs.length) 1 bs = BitVec.ofNat 64 (extraSum bs) := by
    apply BitVec.eq_of_toNat_eq
    rw [foldFrom_toNat hpad, BitVec.toNat_ofNat, extraSum_eq_wireWord_mul]
  rw [fold, hsum]

theorem wireWord_cons_div (b : Byte) (bs : List Byte) :
    wireWord (b :: bs) / 2 ^ pad bs.length = b.toNat / 2 ^ pad bs.length + extraSum bs := by
  have hpad : pad bs.length ≤ 8 := Nat.min_le_left _ _
  have hsplit : 2 ^ (8 - pad bs.length) * 2 ^ pad bs.length = 256 := by
    rw [← Nat.pow_add, Nat.sub_add_cancel hpad]
  rw [extraSum_eq_wireWord_mul, ← Nat.add_mul_div_right _ _ (Nat.two_pow_pos _), Nat.mul_assoc, hsplit, Nat.mul_comm,
    wireWord_cons]

theorem wireValue_cons_eq_some_iff_fold (b : Byte) (bs : List Byte) (v : U64) :
    wireValue (b :: bs) = some v ↔
      IsTrailingZeros b bs.length ∧ fold (payloadBits b bs.length) bs.length bs = v := by
  rw [wireValue_cons_eq_some_iff]
  refine and_congr_right fun htz => ?_
  rw [← fold_toNat b htz.1, BitVec.toNat_inj, eq_comm]

/-- Every first byte with as many bytes after it as it declares carries a value: its payload plus the exact sum. -/
theorem exists_wireValue_cons {b : Byte} {bs : List Byte} (htz : IsTrailingZeros b bs.length) :
    ∃ v, wireValue (b :: bs) = some v ∧ v.toNat = b.toNat / 2 ^ (bs.length + 1) + extraSum bs := by
  refine ⟨_, (wireValue_cons_eq_some_iff_fold b bs _).mpr ⟨htz, rfl⟩, ?_⟩
  rw [fold_toNat b htz.1, wireWord_cons_div, byte_div_two_pow_pad b htz.1]

/-! ### The accepting step -/

theorem exec_decode_idle (x : U64) {s : State} (hq : s.seq = .idle) :
    exec (.decode x) s = .next (runDecode (accept 0b11 x s)) := by
  simp only [exec, execDecode, whenIdle_idle _ hq]

/-- Settles O18: acceptance and the one request are all the first step of DECODE does. -/
theorem decodeIssuesThePrefixRead : Obligations.DecodeIssuesThePrefixRead :=
  fun x _ hq => exec_decode_idle x hq

theorem step_decode {s : State} {x : U64} {cs : List Command} (hq : s.seq = .idle) (hp : s.prompt)
    (hc : s.env.cmds = ⟨0b11, x⟩ :: cs) : step s = .next (runDecode (accept 0b11 x (s.withProgram cs))) := by
  rw [step_prompt hp, dueEvent_command hq hc]
  rfl

@[simp] theorem runDecode_seq (s : State) : (runDecode s).seq = .awaitPrefix := rfl
@[simp] theorem runDecode_env (s : State) :
    (runDecode s).env = { s.env with requests := s.env.requests ++ [.readExact 1] } := rfl

/-! ### The source's answers -/

/-- A first byte without trailing zeros ends the operation (R183). -/
theorem dueEvent_onlyByte {s : State} {b : Byte} {rest : List SrcItem} (hq : s.seq = .awaitPrefix)
    (htz : IsTrailingZeros b 0) (hs : s.env.source = .byte b :: rest) :
    ∃ t, (dueEvent s).result = .next t ∧ (setSource rest s).endsWithPrefix b (payloadBits b 0) t := by
  rw [dueEvent_prefixByte hq hs, takePrefix_eq (s := setSource rest s) b hq, (tz8_eq_iff b 0).mpr htz]
  refine ⟨_, rfl, rfl, rfl, rfl, rfl, rfl, ?_, rfl, rfl, rfl⟩
  exact bufOf_getElem [b] _ 0 (by decide)

/-- A first byte with trailing zeros asks for as many bytes (R183). -/
theorem dueEvent_firstByte {s : State} {b : Byte} {e : Nat} {rest : List SrcItem} (hq : s.seq = .awaitPrefix)
    (htz : IsTrailingZeros b e) (hpos : 1 ≤ e) (hs : s.env.source = .byte b :: rest) :
    (dueEvent s).result = .next ((setSource rest s).awaitingExtra b (payloadBits b e) e) := by
  have hcount : (BitVec.ofNat 4 e).toNat = e := toNat_ofNat_length e (Nat.le_succ_of_le htz.1)
  have hne : BitVec.ofNat 4 e ≠ 0 := by
    intro h
    rw [h] at hcount
    exact absurd hcount (Nat.ne_of_lt hpos)
  rw [dueEvent_prefixByte hq hs, takePrefix_eq (s := setSource rest s) b hq, (tz8_eq_iff b e).mpr htz, afterAnalysis,
    if_neg hne, hcount]
  rfl

/-- The extra bytes, once they have all arrived, end the operation with the fold (R185). -/
theorem dueEvent_extraBytes {s : State} {bytes : List Byte} {rest : List SrcItem} (hq : s.seq = .awaitExtra)
    (h1 : 1 ≤ s.extra.toNat) (h8 : s.extra.toNat ≤ 8) (hl : bytes.length = s.extra.toNat)
    (hs : s.env.source = delivering bytes ++ rest) :
    (dueEvent s).result = .next (respond (.ok (fold s.pay bytes.length bytes) none)
      (fillBuf (s.buf[0] :: bytes) (setSource rest s))) := by
  have hread : readExact s.extra.toNat s.env.source = .ok bytes rest := by
    rw [← hl, hs]
    exact readExact_bytes bytes rest
  rw [dueEvent_awaitExtra hq, awaitExtra, if_pos ⟨h1, h8⟩, hread]
  simp only [takeExtra_eq bytes _ (hl.trans_le h8), setSource_pay, setSource_extra, setSource_buf, hl]

/-- A failure among the extra bytes ends the operation with the source's error (R189). -/
theorem dueEvent_extraError {s : State} {bytes : List Byte} {e : IoErr} {rest : List SrcItem} (hq : s.seq = .awaitExtra)
    (hl : bytes.length < s.extra.toNat) (h8 : s.extra.toNat ≤ 8)
    (hs : s.env.source = delivering bytes ++ .fail e :: rest) : (dueEvent s).result = .next (failRead e s) := by
  have hread : readExact s.extra.toNat s.env.source = .err e := by
    rw [hs]
    exact readExact_fail _ bytes e rest hl
  rw [dueEvent_awaitExtra hq, awaitExtra, if_pos ⟨Nat.one_le_of_lt hl, h8⟩, hread]

theorem failRead_raised (e : IoErr) (s : State) : s.raised (.ioError e) (failRead e s) := ⟨rfl, rfl, rfl, rfl⟩

theorem failRead_env (e : IoErr) (s : State) :
    (failRead e s).env = { s.env with source := Config.freeSource s.freeIx } := rfl

/-- Settles O24: in either phase the answer is `failRead`, which keeps all but the source and the dropped latches. -/
theorem sourceErrorIsRaisedVerbatim : Obligations.SourceErrorIsRaisedVerbatim := by
  intro s ms bytes e rest hd hphase hs
  have hstep : step s = .next (failRead e (s.withMoves ms)) := by
    rw [step_due hd]
    rcases hphase with ⟨hq, rfl⟩ | ⟨hq, hl, h8⟩
    · exact dueEvent_prefixError (s := s.withMoves ms) hq hs
    · exact dueEvent_extraError (s := s.withMoves ms) hq hl h8 hs
  exact ⟨_, Config.freeSource s.freeIx, hstep, failRead_raised e (s.withMoves ms), failRead_env e (s.withMoves ms)⟩

/-- Settles O23: the answer is `respond` after `fillBuf`, and the fold is the payload OR the exact sum. -/
theorem extraBytesAreFolded : Obligations.ExtraBytesAreFolded := by
  intro s ms bytes rest hq hd h1 h8 hl hs
  have hstep := (step_due hd).trans (dueEvent_extraBytes (s := s.withMoves ms) hq h1 h8 hl hs)
  have hcount : (s.buf[0] :: bytes).length = s.extra.toNat + 1 := by rw [List.length_cons, hl]
  have h9 : (s.buf[0] :: bytes).length ≤ 9 := by omega
  refine ⟨_, hstep, rfl, ?_, ?_, ?_, rfl, rfl, rfl, rfl, rfl⟩
  · rw [respond_rsp, withMoves_pay, fold_eq_or_extraSum]
  · rw [respond_len, fillBuf_len, withMoves_buf, toNat_ofNat_length _ h9, hcount]
  · rw [respond_buf, fillBuf_buf, withMoves_buf, ← hcount, bufOf_take _ _ h9]

/-! ### The whole operation -/

/-- A varint that has all arrived is taken off the source whole, and nothing after it: in one step when it is one byte,
otherwise in two, with one more read between them. -/
theorem reaches_of_awaitPrefix {s : State} {v : U64} {bs : List Byte} {rest : List SrcItem}
    (hwire : wireValue bs = some v) (hq : s.seq = .awaitPrefix) (hp : s.prompt) (hs : s.env.source = delivering bs ++ rest) :
    ∃ t, Reaches 2 s t ∧ t.seq = .done ∧ t.rsp = some (.ok v none) ∧
      t.env = { s.env with
        source := rest
        requests := s.env.requests ++ (if bs.length = 1 then [] else [.readExact (bs.length - 1)]) } := by
  match bs with
  | [] => cases hwire
  | [b] =>
    obtain ⟨htz, hv⟩ := (wireValue_cons_eq_some_iff_fold b [] v).mp hwire
    obtain ⟨t, hstep, hdone, hrsp, -, -, -, -, -, -, henv⟩ := dueEvent_onlyByte hq htz hs
    have hvalue : payloadBits b 0 = v := by simpa [fold, foldFrom] using hv
    refine ⟨t, ⟨1, by decide, t, (step_prompt hp).trans hstep, rfl⟩, hdone, hvalue ▸ hrsp, ?_⟩
    simp [henv]
  | b :: c :: bs =>
    obtain ⟨htz, hv⟩ := (wireValue_cons_eq_some_iff_fold b (c :: bs) v).mp hwire
    have hcount : (BitVec.ofNat 4 (c :: bs).length).toNat = (c :: bs).length :=
      toNat_ofNat_length _ (Nat.le_succ_of_le htz.1)
    have hpos : 1 ≤ (c :: bs).length := Nat.succ_pos _
    have hfirst := (step_prompt hp).trans (dueEvent_firstByte hq htz hpos hs)
    have hsecond := (step_prompt
      (s := (setSource (delivering (c :: bs) ++ rest) s).awaitingExtra b (payloadBits b (c :: bs).length) _) hp).trans
      (dueEvent_extraBytes rfl (hcount.symm ▸ hpos) (hcount.symm ▸ htz.1) hcount.symm rfl)
    refine ⟨_, ⟨2, by decide, _, hfirst, _, hsecond, rfl⟩, rfl, ?_, ?_⟩
    · exact congrArg (fun w => some (Response.ok w none)) hv
    · simp [State.awaitingExtra]

/-- Settles O27, first clause: the accepting step, and then the varint. The second: what ENCODE writes carries its value. -/
theorem decodeConsumesExactlyOneVarint : Obligations.DecodeConsumesExactlyOneVarint := by
  refine ⟨fun s x v bs rest cs hwire hq hp hc hs => ?_, fun v T hT => ⟨hT.wireValue_wireBytes, wireBytes_length v T⟩⟩
  obtain ⟨t, ⟨n, hn, hrun⟩, hdone, hrsp, henv⟩ :=
    reaches_of_awaitPrefix (s := runDecode (accept 0b11 x (s.withProgram cs))) hwire rfl hp hs
  refine ⟨t, ⟨n + 1, Nat.succ_le_succ hn, _, step_decode hq hp hc, hrun⟩, hdone, hrsp, ?_⟩
  simp [henv, State.withProgram]

/-- Settles O29: such bytes carry a value by `wireValue`, which asks for no minimal length, and DECODE takes what carries
one. -/
theorem nonCanonicalVarintsAreDecoded : Obligations.NonCanonicalVarintsAreDecoded := by
  intro s x b bs rest cs htz hq hp hc hs
  obtain ⟨v, hwire, hv⟩ := exists_wireValue_cons htz
  obtain ⟨t, hreach, hdone, hrsp, henv⟩ := decodeConsumesExactlyOneVarint.1 s x v (b :: bs) rest cs hwire hq hp hc hs
  exact ⟨t, v, hreach, hdone, hrsp, hv, by rw [henv]⟩

end Sys2Proof.Machine
end

section
/-! PROOF. The effect of an error (spec/60_exceptions.md R212), for every core error at once. -/

namespace Sys2Proof.Machine

theorem raise_raised (err : CoreError) (s : State) : s.raised err.response (raise err s) :=
  ⟨raise_rsp err s, raise_seq err s, raise_op err s, raise_operand err s⟩

/-- Settles O41: `raise_raised` and `raise_env` at each of the two errors. -/
theorem raiseWritesTheErrorResponse : Obligations.RaiseWritesTheErrorResponse := fun s =>
  ⟨fun e => ⟨raise_raised (.io e) s, raise_env (.io e) s⟩,
    fun n => ⟨raise_raised (.overflow n) s, raise_env (.overflow n) s⟩⟩

end Sys2Proof.Machine
end

section
/-! PROOF. No acceptance outside IDLE (spec/70_reset_and_hazards.md R244): of the rows of R25 only acceptance takes a command
off the caller's list or writes OP and OPERAND, and of the environment's moves only an offer and a reset touch them. -/

namespace Sys2Proof.Machine

/-- The caller holds the same commands, and the latches of the accepted one are as they were. -/
structure State.KeepsCommands (s t : State) : Prop where
  cmds : t.env.cmds = s.env.cmds
  op : t.op = s.op
  operand : t.operand = s.operand

theorem afterAnalysis_keepsCommands (b : Byte) (a : Analysis) (s : State) : s.KeepsCommands (afterAnalysis b a s) := by
  cases a with
  | overflow count => exact ⟨rfl, rfl, rfl⟩
  | ok payload extra =>
    simp only [afterAnalysis]
    split_ifs
    · exact ⟨rfl, rfl, rfl⟩
    · exact ⟨rfl, rfl, rfl⟩

/-- The rows of R25 outside IDLE. -/
theorem DueCase.keepsCommands {s t : State} (h : DueCase s t) (hbusy : s.seq ≠ .idle) : s.KeepsCommands t := by
  cases h with
  | idle hq | accepted _ _ hq => exact absurd hq hbusy
  | prefixByte b rest =>
    obtain ⟨hcmds, hop, hoperand⟩ := afterAnalysis_keepsCommands b (analyze b) (setBuf0 b (setSource rest s))
    exact ⟨hcmds, hop, hoperand⟩
  | prefixBlocked | extraBlocked | writeBlocked | extraBytes | written | taken | readFailed | writeFailed =>
    exact ⟨rfl, rfl, rfl⟩

/-- Settles O52: the due agent accepts nothing outside IDLE, and an offer only makes the caller's list longer. -/
theorem noStepAcceptsACommandOutsideIdle : Obligations.NoStepAcceptsACommandOutsideIdle := by
  intro s t hbusy hstep
  cases step_cases hstep with
  | due ms _ _ hdue =>
    obtain ⟨hcmds, hop, hoperand⟩ := hdue.keepsCommands hbusy
    exact ⟨.inl hcmds, fun _ => ⟨hop, hoperand⟩⟩
  | offer c ms hm => exact ⟨.inr ⟨c, ms, hm, rfl⟩, fun _ => ⟨rfl, rfl⟩⟩
  | reset ms hm => exact ⟨.inl rfl, fun hno => absurd hm (hno ms)⟩
  | stall | lateAnswer | connectSource | connectSink => exact ⟨.inl rfl, fun _ => ⟨rfl, rfl⟩⟩

end Sys2Proof.Machine
end

section
/-! PROOF. Varints back to back (spec/70_reset_and_hazards.md R247): one DECODE from IDLE to IDLE takes its own varint and
leaves the next one at the head of the source, so the runs of a list of DECODEs follow one another. -/

namespace Sys2Proof.Machine

/-! ### Runs one after another -/

theorem stepsTo_trans {j k : Nat} {s t u : State} (hst : stepsTo j s t) (htu : stepsTo k t u) : stepsTo (j + k) s u := by
  induction j generalizing s with
  | zero =>
    obtain rfl := hst
    rwa [Nat.zero_add]
  | succ j ih =>
    obtain ⟨s', hstep, hrest⟩ := hst
    rw [Nat.succ_add]
    exact ⟨s', hstep, ih hrest⟩

theorem Reaches.refl (s : State) : Reaches 0 s s := ⟨0, Nat.le_refl 0, rfl⟩

theorem Reaches.trans {j k : Nat} {s t u : State} (hst : Reaches j s t) (htu : Reaches k t u) : Reaches (j + k) s u := by
  obtain ⟨m, hm, hrun⟩ := hst
  obtain ⟨n, hn, hrun'⟩ := htu
  exact ⟨m + n, Nat.add_le_add hm hn, stepsTo_trans hrun hrun'⟩

theorem reaches_one_of_step {s t : State} (h : step s = .next t) : Reaches 1 s t := ⟨1, Nat.le_refl 1, t, h, rfl⟩

/-! ### One DECODE, from IDLE to IDLE -/

/-- The DONE row of R25, when the caller takes the response at once. -/
theorem step_taken {s : State} {r : Response} (hq : s.seq = .done) (hp : s.prompt) (hr : s.rsp = some r) :
    step s = .next { s with seq := .idle, env := { s.env with taken := s.env.taken ++ [r] } } := by
  rw [step_prompt hp, dueEvent_done hq, takeResponse, hr]

/-- The operation itself takes at most three steps (R187), and the taking of its response one more. -/
theorem reaches_idle_of_decode {s : State} {x v : U64} {bs : List Byte} {rest : List SrcItem} {cs : List Command}
    (hwire : wireValue bs = some v) (hq : s.seq = .idle) (hp : s.prompt) (hc : s.env.cmds = ⟨0b11, x⟩ :: cs)
    (hs : s.env.source = delivering bs ++ rest) :
    ∃ t, Reaches 4 s t ∧ t.seq = .idle ∧ t.prompt ∧ t.env.cmds = cs ∧ t.env.source = rest ∧
      t.env.taken = s.env.taken ++ [.ok v none] := by
  obtain ⟨u, hreach, hdone, hrsp, henv⟩ := decodeConsumesExactlyOneVarint.1 s x v bs rest cs hwire hq hp hc hs
  have hprompt : u.prompt := by
    rw [State.prompt, henv]
    exact hp
  refine ⟨_, hreach.trans (reaches_one_of_step (step_taken hdone hprompt hrsp)), rfl, hprompt, ?_, ?_, ?_⟩ <;>
    simp only [henv]

/-! ### A list of them -/

/-- Settles O30, by induction on the list: after the first varint the instance is in IDLE again, with the others before it. -/
theorem backToBackVarintsDecodeInOrder : Obligations.BackToBackVarintsDecodeInOrder := by
  intro wires
  induction wires with
  | nil =>
    intro s rest cs _ hq _ hc hs
    exact ⟨s, .refl s, hq, hc, hs, (List.append_nil _).symm⟩
  | cons w wires ih =>
    intro s rest cs hwires hq hp hc hs
    obtain ⟨hw, hrest⟩ := List.forall_mem_cons.mp hwires
    have hsource : s.env.source = delivering w.1 ++ (delivering (wires.flatMap fun w => w.1) ++ rest) := by
      rw [hs, delivering, List.flatMap_cons, List.map_append, List.append_assoc]
      rfl
    obtain ⟨u, hfirst, hqu, hpu, hcu, hsu, htaken⟩ := reaches_idle_of_decode hw hq hp hc hsource
    obtain ⟨t, hothers, hqt, hct, hst, htaken'⟩ := ih u rest cs hrest hqu hpu hcu hsu
    refine ⟨t, ?_, hqt, hct, hst, ?_⟩
    · rw [List.length_cons, Nat.mul_succ, Nat.add_comm]
      exact hfirst.trans hothers
    · rw [htaken', htaken, List.append_assoc]
      rfl

end Sys2Proof.Machine
end

section
/-! PROOF. Words and instructions (spec/30_encoding.md R81, R83, R89, R90): the byte of each class is its payload above the
terminator, so its trailing zeros select the class and the bits above the terminator give the payload back. -/

namespace Sys2Proof

theorem Command.ofWord_toWord (c : Command) : Command.ofWord c.toWord = c := by
  obtain ⟨op, operand⟩ := c
  have hop := op.isLt
  have hx := operand.isLt
  simp only [Command.ofWord, Command.toWord, Command.mk.injEq, ← BitVec.toNat_inj, BitVec.toNat_ofNat]
  omega

theorem Command.toWord_ofWord {w : Nat} (h : w < 2 ^ 66) : (Command.ofWord w).toWord = w := by
  simp only [Command.ofWord, Command.toWord, BitVec.toNat_ofNat]
  omega

end Sys2Proof

namespace Sys2Proof.Machine

/-! ### Commands -/

theorem encode_decodeCommand (c : Command) : encode (decodeCommand c) = (.command, c.toWord) := by
  obtain ⟨op, x⟩ := c
  rcases op_cases op with rfl | rfl | rfl | rfl <;> rfl

theorem decode_command_toWord (c : Command) : decode .command c.toWord = .ok (decodeCommand c) := by
  have hfits : c.toWord < 2 ^ 66 := of_decide_eq_true (command_toWord_fits c)
  rw [decode, if_pos hfits, Command.ofWord_toWord]

/-! ### The byte of a class -/

/-- The fields of R81 do not overlap: the payload counts from above the terminator on. -/
theorem prefixByte_toNat {e n : Nat} (h : e + 1 + n = 8) (p : BitVec n) :
    (prefixByte e p).toNat = p.toNat * 2 ^ (e + 1) + 2 ^ e := by
  have hp := p.isLt
  have hterm : 2 ^ e < 2 ^ (e + 1) := Nat.pow_lt_pow_right (by decide) (Nat.lt_succ_self e)
  have hn : n = 7 - e := by omega
  have hbyte := (payload_add_terminator_lt_iff p.toNat (e := e) (by omega)).mpr (hn ▸ hp)
  have hp8 : p.toNat < 2 ^ 8 := hp.trans_le (Nat.pow_le_pow_right (by decide) (by omega))
  rw [prefixByte, BitVec.toNat_or, BitVec.toNat_shiftLeft, BitVec.toNat_shiftLeft, BitVec.toNat_setWidth,
    Nat.mod_eq_of_lt hp8, Nat.shiftLeft_eq, Nat.mod_eq_of_lt (by omega), Nat.shiftLeft_eq, BitVec.toNat_ofNat,
    Nat.mod_eq_of_lt (by decide : 1 < 2 ^ 8), Nat.one_mul, Nat.mod_eq_of_lt (a := 2 ^ e) (by omega), ← Nat.shiftLeft_eq,
    ← Nat.shiftLeft_add_eq_or_of_lt hterm]

theorem prefixByte_eq_ofNat {e n : Nat} (h : e + 1 + n = 8) (p : BitVec n) :
    prefixByte e p = BitVec.ofNat 8 (p.toNat * 2 ^ (e + 1) + 2 ^ e) := by
  rw [← prefixByte_toNat h p, BitVec.ofNat_toNat, BitVec.setWidth_eq]

theorem prefixByte_div {e n : Nat} (h : e + 1 + n = 8) (p : BitVec n) :
    (prefixByte e p).toNat / 2 ^ (e + 1) = p.toNat := by
  have hterm : 2 ^ e < 2 ^ (e + 1) := Nat.pow_lt_pow_right (by decide) (Nat.lt_succ_self e)
  rw [prefixByte_toNat h, Nat.mul_comm, Nat.mul_add_div (Nat.two_pow_pos _), Nat.div_eq_of_lt hterm, Nat.add_zero]

theorem isTrailingZeros_prefixByte {e n : Nat} (h : e + 1 + n = 8) (p : BitVec n) :
    IsTrailingZeros (prefixByte e p) e := by
  have hterm : 2 ^ e < 2 ^ (e + 1) := Nat.pow_lt_pow_right (by decide) (Nat.lt_succ_self e)
  have hbyte : 2 ^ e < 2 ^ 8 := Nat.pow_lt_pow_right (by decide) (by omega)
  rw [isTrailingZeros_iff_mod _ (by omega), pad, Nat.min_eq_right (by omega), prefixByte_toNat h, Nat.mul_comm,
    Nat.mul_add_mod, Nat.mod_eq_of_lt hterm, Nat.mod_eq_of_lt hbyte]

theorem tz8_prefixByte {e n : Nat} (h : e + 1 + n = 8) (p : BitVec n) : tz8 (prefixByte e p) = e :=
  (tz8_eq_iff _ e).mpr (isTrailingZeros_prefixByte h p)

theorem extractLsb'_prefixByte {e n : Nat} (h : e + 1 + n = 8) (p : BitVec n) :
    (prefixByte e p).extractLsb' (e + 1) n = p := by
  apply BitVec.eq_of_toNat_eq
  rw [BitVec.extractLsb'_toNat, Nat.shiftRight_eq_div_pow, prefixByte_div h, Nat.mod_eq_of_lt p.isLt]

/-! ### The classes -/

/-- Mask and match of the row of R83 with `e` extra bytes: all bits up to the terminator, and the terminator alone. For
`e = 8` the byte has no bit for it. -/
def classRow (e : Nat) : Byte × Byte := (BitVec.ofNat 8 (2 ^ (e + 1) - 1), BitVec.ofNat 8 (2 ^ e))

theorem classRow_mask_toNat {e : Nat} (h8 : e ≤ 8) : (classRow e).1.toNat = 2 ^ pad e - 1 := by
  rw [classRow, BitVec.toNat_ofNat]
  rcases Nat.lt_or_eq_of_le h8 with he | rfl
  · have hfits : 2 ^ (e + 1) ≤ 2 ^ 8 := Nat.pow_le_pow_right (by decide) he
    have hpos := Nat.two_pow_pos (e + 1)
    rw [pad, Nat.min_eq_right he, Nat.mod_eq_of_lt (by omega)]
  · rfl

/-- Each row of R83 tests for one number of trailing zeros. -/
theorem inClass_classRow {e : Nat} (h8 : e ≤ 8) (b : Byte) :
    inClass (classRow e).1 (classRow e).2 b = decide (tz8 b = e) := by
  rw [inClass, Bool.eq_iff_iff, beq_iff_eq, decide_eq_true_iff, tz8_eq_iff, isTrailingZeros_iff_mod b h8,
    ← BitVec.toNat_inj, BitVec.toNat_and, classRow_mask_toNat h8, Nat.and_two_pow_sub_one_eq_mod, classRow,
    BitVec.toNat_ofNat]

/-- The decoder's chain of tests is a case distinction on the trailing zeros. -/
theorem decodePrefixByte_eq (b : Byte) :
    decodePrefixByte b =
      if tz8 b = 0 then .prefixClassT1 (b.extractLsb' 1 7)
      else if tz8 b = 1 then .prefixClassT2 (b.extractLsb' 2 6)
      else if tz8 b = 2 then .prefixClassT3 (b.extractLsb' 3 5)
      else if tz8 b = 3 then .prefixClassT4 (b.extractLsb' 4 4)
      else if tz8 b = 4 then .prefixClassT5 (b.extractLsb' 5 3)
      else if tz8 b = 5 then .prefixClassT6 (b.extractLsb' 6 2)
      else if tz8 b = 6 then .prefixClassT7 (b.extractLsb' 7 1)
      else if tz8 b = 7 then .prefixClassT8
      else .prefixClassT9 := by
  have hrow (e : Nat) (h8 : e ≤ 8) := inClass_classRow h8 b
  have h0 : inClass 0x01 0x01 b = decide (tz8 b = 0) := hrow 0 (by decide)
  have h1 : inClass 0x03 0x02 b = decide (tz8 b = 1) := hrow 1 (by decide)
  have h2 : inClass 0x07 0x04 b = decide (tz8 b = 2) := hrow 2 (by decide)
  have h3 : inClass 0x0F 0x08 b = decide (tz8 b = 3) := hrow 3 (by decide)
  have h4 : inClass 0x1F 0x10 b = decide (tz8 b = 4) := hrow 4 (by decide)
  have h5 : inClass 0x3F 0x20 b = decide (tz8 b = 5) := hrow 5 (by decide)
  have h6 : inClass 0x7F 0x40 b = decide (tz8 b = 6) := hrow 6 (by decide)
  have h7 : inClass 0xFF 0x80 b = decide (tz8 b = 7) := hrow 7 (by decide)
  simp only [decodePrefixByte, h0, h1, h2, h3, h4, h5, h6, h7, decide_eq_true_iff]

/-- A byte made by R81 decodes to its class, and the class to its payload. -/
theorem decodePrefixByte_encode (i : Instr) (h : (encode i).1 = .source) :
    decodePrefixByte (BitVec.ofNat 8 (encode i).2) = i := by
  cases i with
  | prefixOp | size | encode | decode => cases h
  | prefixClassT1 p | prefixClassT2 p | prefixClassT3 p | prefixClassT4 p | prefixClassT5 p | prefixClassT6 p
  | prefixClassT7 p => simp [encode, decodePrefixByte_eq, tz8_prefixByte, extractLsb'_prefixByte]
  | prefixClassT8 | prefixClassT9 => rfl

theorem decode_source_toNat (b : Byte) : decode .source b.toNat = .ok (decodePrefixByte b) := by
  have hbyte : b.toNat < 2 ^ 8 := b.isLt
  rw [decode, if_pos hbyte, BitVec.ofNat_toNat, BitVec.setWidth_eq]

/-- The number of a source instruction is that of its byte. -/
theorem encode_source_lt {i : Instr} (h : (encode i).1 = .source) : (encode i).2 < 2 ^ 8 := by
  cases i with
  | prefixOp | size | encode | decode => cases h
  | prefixClassT9 => decide
  | _ => exact BitVec.isLt _

/-! ### The statements -/

/-- Settles O1: a command's two fields are read back from its number, and a class byte by `decodePrefixByte_encode`. -/
theorem decodeOfEncodeIsTheInstruction : Obligations.DecodeOfEncodeIsTheInstruction := by
  intro i
  cases hport : (encode i).1 with
  | command =>
    cases i with
    | prefixOp x | size x | encode x | decode x => exact decode_command_toWord _
    | _ => cases hport
  | source => rw [decode, if_pos (encode_source_lt hport), decodePrefixByte_encode i hport]

/-- Settles O2: on either port the word is that of the decoded fields. -/
theorem encodeOfDecodeIsTheWord : Obligations.EncodeOfDecodeIsTheWord := by
  intro port w hw
  cases port with
  | command =>
    have hfits : w < 2 ^ 66 := of_decide_eq_true hw
    refine ⟨_, if_pos hfits, ?_⟩
    rw [encode_decodeCommand, Command.toWord_ofWord hfits]
  | source =>
    have hfits : w < 2 ^ 8 := of_decide_eq_true hw
    refine ⟨_, if_pos hfits, ?_⟩
    rw [encode_decodePrefixByte, BitVec.toNat_ofNat, Nat.mod_eq_of_lt hfits]

/-- Settles O4: the nine rows test for the nine numbers of trailing zeros, and a byte has one of them. -/
theorem prefixClassesPartitionTheBytes : Obligations.PrefixClassesPartitionTheBytes := by
  intro b
  change (((List.range 9).map classRow).filter fun r => inClass r.1 r.2 b).length = 1
  have hrows : ∀ e ∈ List.range 9, inClass (classRow e).1 (classRow e).2 b = (e == tz8 b) := fun e he => by
    rw [inClass_classRow (Nat.le_of_lt_succ (List.mem_range.mp he)), Bool.eq_iff_iff, decide_eq_true_iff, beq_iff_eq,
      eq_comm]
  have hmem : tz8 b ∈ List.range 9 := List.mem_range.mpr (Nat.lt_succ_of_le (tz8_le b))
  rw [List.filter_map, List.length_map, Function.comp_def, List.filter_congr hrows, ← List.countP_eq_length_filter]
  exact List.count_eq_one_of_mem List.nodup_range hmem

/-- Settles O5: each word is the one that its instruction encodes to. -/
theorem writtenOutWordsDecode : Obligations.WrittenOutWordsDecode :=
  ⟨decodeOfEncodeIsTheInstruction (.size 300), decodeOfEncodeIsTheInstruction (.encode 300),
    decodeOfEncodeIsTheInstruction (.prefixClassT2 0b101100), decodeOfEncodeIsTheInstruction .prefixClassT9⟩

end Sys2Proof.Machine
end

section
/-! PROOF. DECODE's first byte (spec/43_decoder.md R182, R183) and what a whole varint carries (R186, R187). -/

namespace Sys2Proof.Machine

/-! ### A byte delivered to AWAIT_PREFIX -/

theorem payloadBits_eq_ofNat (b : Byte) {e : Nat} (h8 : e ≤ 8) :
    payloadBits b e = BitVec.ofNat 64 (b.toNat / 2 ^ (e + 1)) := by
  rw [← byte_div_two_pow_pad b h8, ← payloadBits_toNat b h8, BitVec.ofNat_toNat, BitVec.setWidth_eq]

theorem payloadBits_prefixByte {e n : Nat} (h : e + 1 + n = 8) (p : BitVec n) :
    payloadBits (prefixByte e p) e = BitVec.ofNat 64 p.toNat := by
  rw [payloadBits_eq_ofNat _ (by omega), prefixByte_div h]

/-- A byte taken is the byte at the head of a source, so what the source's answers do says what it does. -/
theorem takePrefix_eq_dueEvent (b : Byte) {s : State} (hq : s.seq = .awaitPrefix) :
    takePrefix b s = (dueEvent (setSource (.byte b :: s.env.source) s)).result :=
  (dueEvent_prefixByte (s := setSource (.byte b :: s.env.source) s) hq rfl).symm

theorem takePrefix_ends {b : Byte} {s : State} (hq : s.seq = .awaitPrefix) (htz : IsTrailingZeros b 0) :
    ∃ t, takePrefix b s = .next t ∧ s.endsWithPrefix b (payloadBits b 0) t := by
  rw [takePrefix_eq_dueEvent b hq]
  exact dueEvent_onlyByte (s := setSource (.byte b :: s.env.source) s) hq htz rfl

theorem takePrefix_awaits {b : Byte} {e : Nat} {s : State} (hq : s.seq = .awaitPrefix) (htz : IsTrailingZeros b e)
    (hpos : 1 ≤ e) : takePrefix b s = .next (s.awaitingExtra b (payloadBits b e) e) := by
  rw [takePrefix_eq_dueEvent b hq]
  exact dueEvent_firstByte (s := setSource (.byte b :: s.env.source) s) hq htz hpos rfl

/-- The byte of a class with extra bytes, by its fields. -/
theorem takePrefix_prefixByte {e n : Nat} (h : e + 1 + n = 8) (hpos : 1 ≤ e) (p : BitVec n) {s : State}
    (hq : s.seq = .awaitPrefix) :
    takePrefix (prefixByte e p) s =
      .next (s.awaitingExtra (BitVec.ofNat 8 (p.toNat * 2 ^ (e + 1) + 2 ^ e)) (BitVec.ofNat 64 p.toNat) e) := by
  rw [takePrefix_awaits hq (isTrailingZeros_prefixByte h p) hpos, payloadBits_prefixByte h, ← prefixByte_eq_ofNat h]

/-- Settles O19: the byte of class T1 has no trailing zero, and its payload is the bits above bit 0. -/
theorem classT1EndsTheDecode : Obligations.ClassT1EndsTheDecode := by
  intro p s hq
  obtain ⟨t, hnext, hends⟩ := takePrefix_ends hq (isTrailingZeros_prefixByte (e := 0) rfl p)
  rw [payloadBits_prefixByte rfl, prefixByte_eq_ofNat rfl] at hends
  exact ⟨t, hnext, hends⟩

/-- Settles O20: each class is its byte, and the zero byte of T9 has eight trailing zeros and no payload. -/
theorem classesT2ToT9AwaitTheirExtraBytes : Obligations.ClassesT2ToT9AwaitTheirExtraBytes := by
  intro s hq
  refine ⟨fun p => ?_, fun p => ?_, fun p => ?_, fun p => ?_, fun p => ?_, fun p => ?_, ?_, ?_⟩
  · exact takePrefix_prefixByte (e := 1) rfl (by decide) p hq
  · exact takePrefix_prefixByte (e := 2) rfl (by decide) p hq
  · exact takePrefix_prefixByte (e := 3) rfl (by decide) p hq
  · exact takePrefix_prefixByte (e := 4) rfl (by decide) p hq
  · exact takePrefix_prefixByte (e := 5) rfl (by decide) p hq
  · exact takePrefix_prefixByte (e := 6) rfl (by decide) p hq
  · exact takePrefix_prefixByte (e := 7) rfl (by decide) (0#0) hq
  · exact takePrefix_awaits hq ((isTrailingZeros_eight_iff 0).mpr rfl) (by decide)

/-- Settles O21: the split is on the count of trailing zeros being 0. -/
theorem deliveredPrefixByteSelectsTheSecondRead : Obligations.DeliveredPrefixByteSelectsTheSecondRead := by
  intro s ms b e rest hq hd htz hs
  rw [step_due hd, ← payloadBits_eq_ofNat b htz.1]
  rcases Nat.eq_zero_or_pos e with rfl | hpos
  · obtain ⟨t, hnext, hends⟩ := dueEvent_onlyByte (s := s.withMoves ms) hq htz hs
    rw [payloadBits_eq_ofNat b (Nat.zero_le 8)] at hends
    exact ⟨t, hnext, fun _ => hends, nofun⟩
  · exact ⟨_, dueEvent_firstByte (s := s.withMoves ms) hq htz hpos hs, fun h0 => absurd h0 (Nat.ne_of_gt hpos),
      fun _ => rfl⟩

/-- Settles O22: an instruction of the source port is a byte taken, which AWAIT_PREFIX alone takes. -/
theorem prefixByteWithoutARequestIsRefused : Obligations.PrefixByteWithoutARequestIsRefused := fun i s hport hq => by
  rw [exec_source i s hport, takePrefix_refused _ hq]

/-! ### Whole varints -/

/-- Settles O25: the value of a varint is the exact sum, it fits the length, and the unified form carries it. -/
theorem foldIsExactAndOneToOne : Obligations.FoldIsExactAndOneToOne := by
  refine ⟨fun b bs htz => ?_, fun as bs v => eq_of_wireValue_eq, fun T v h1 h9 hfits => ?_⟩
  · obtain ⟨v, hwire, hv⟩ := exists_wireValue_cons htz
    exact ⟨v, hwire, hv, fun h7 => fits_of_wireValue hwire (Nat.succ_le_succ h7)⟩
  · exact ⟨wireBytes v T, wireBytes_length v T, wireValue_wireBytes h1 h9 hfits⟩

/-- Settles O28: what ENCODE writes for `v` carries `v`, and a DECODE takes exactly the bytes that carry a value. -/
theorem decodeUndoesEncode : Obligations.DecodeUndoesEncode := by
  intro s x v T rest cs hT hq hp hc hs
  obtain ⟨t, hreach, hdone, hrsp, henv⟩ :=
    decodeConsumesExactlyOneVarint.1 s x v (wireBytes v T) rest cs hT.wireValue_wireBytes hq hp hc hs
  exact ⟨t, hreach, hdone, hrsp, by rw [henv]⟩

end Sys2Proof.Machine
end

section
/-! PROOF. The rows of the sequencer (spec/10_state.md R25) and the moves of the environment (20_memory.md R69), one by one:
acceptance, the delivered byte, the sink's answer, the taking of the response, reset and late answers. -/

namespace Sys2Proof.Machine

/-! ### Instructions -/

/-- Settles O31: the step and exec of the decoded command both accept it. -/
theorem stepRunsTheOfferedCommand : Obligations.StepRunsTheOfferedCommand := by
  intro s ms c cs hq hd hc
  refine ⟨_, decode_command_toWord c, ?_⟩
  rw [step_due hd, dueEvent_command (s := s.withMoves ms) hq hc]
  exact (exec_decodeCommand c (s := { s with env := { s.env with cmds := cs, moves := ms } }) hq).symm

/-- Settles O32: the step and exec of the decoded byte both take it. -/
theorem stepRunsTheDeliveredPrefixByte : Obligations.StepRunsTheDeliveredPrefixByte := by
  intro s ms b rest hq hd hs
  refine ⟨_, decode_source_toNat b, ?_⟩
  rw [step_due hd, dueEvent_prefixByte (s := s.withMoves ms) hq hs]
  exact (exec_decodePrefixByte b _).symm

/-- An instruction of the command port does nothing outside IDLE. -/
theorem exec_command_busy {i : Instr} {s : State} (hport : (encode i).1 = .command) (hbusy : s.seq ≠ .idle) :
    exec i s = .next s := by
  cases i with
  | prefixOp | size | encode | decode =>
    simp only [exec, execPrefix, execSize, execEncode, execDecode, whenIdle_busy _ hbusy]
  | _ => cases hport

/-- Settles O33: the four commands are the instructions of the command port, and an offer is a move of its own. -/
theorem commandsAreAcceptedInIdleOnly : Obligations.CommandsAreAcceptedInIdleOnly := fun _ _ hbusy =>
  ⟨exec_command_busy rfl hbusy, exec_command_busy rfl hbusy, exec_command_busy rfl hbusy, exec_command_busy rfl hbusy,
    fun _ _ hm => step_move hm⟩

/-! ### The sink's answer -/

/-- Settles O15: the step is `awaitWrite` at the sink's Ok. -/
theorem sinkOkEndsEncode : Obligations.SinkOkEndsEncode := by
  intro s ms answers hq hd h1 h9 ha
  rw [step_due hd, dueEvent_awaitWrite (s := s.withMoves ms) hq, awaitWrite_ok (s := s.withMoves ms) h1 h9 ha]
  rfl

theorem failWrite_raised (e : IoErr) (answers : List SinkAnswer) (s : State) :
    s.raised (.ioError e) (failWrite e answers s) := ⟨rfl, rfl, rfl, rfl⟩

/-- Settles O16: the step is `failWrite`, which keeps all but the sink, its answers and the dropped latches. -/
theorem sinkErrorIsRaisedVerbatim : Obligations.SinkErrorIsRaisedVerbatim := by
  intro s ms e answers hq hd h1 h9 ha
  rw [step_due hd, dueEvent_awaitWrite (s := s.withMoves ms) hq, awaitWrite_err (s := s.withMoves ms) h1 h9 ha]
  exact ⟨_, _, rfl, failWrite_raised e answers (s.withMoves ms), failWrite_env e answers (s.withMoves ms)⟩

/-! ### The response -/

/-- Settles O35: DONE presents the response until the caller takes it. -/
theorem takingTheResponseLeadsToIdle : Obligations.TakingTheResponseLeadsToIdle := by
  intro s ms r hq hd hr
  refine ⟨?_, { s with seq := .idle, env := { s.env with taken := s.env.taken ++ [r], moves := ms } }, ?_, rfl, rfl⟩
  · rw [State.presented, if_pos hq, hr, Option.map_some]
  · rw [step_due hd, dueEvent_done (s := s.withMoves ms) hq, takeResponse, withMoves_rsp, hr]
    rfl

/-! ### Reset -/

theorem step_reset {s : State} {ms : List Move} (hm : s.env.moves = .reset :: ms) :
    step s = .next (applyReset (s.withMoves ms)) := step_move hm

theorem step_lateAnswer {s : State} {ms : List Move} {r : Request} (hm : s.env.moves = .lateAnswer r :: ms)
    (hr : r ∈ s.env.abandoned) :
    step s = .next { s with env := { s.env with moves := ms, abandoned := s.env.abandoned.erase r } } :=
  (step_move hm).trans (if_pos hr)

/-- Settles O42: both are fields of the reset state, and IDLE presents nothing. -/
theorem resetStateIsIdleAndEmpty : Obligations.ResetStateIsIdleAndEmpty := ⟨rfl, rfl, rfl⟩

/-- Settles O43: `applyReset` in any phase. -/
theorem resetFromAnyPhaseLeadsToIdle : Obligations.ResetFromAnyPhaseLeadsToIdle := fun s ms hm =>
  ⟨_, step_reset hm, applyReset_seq (s.withMoves ms), applyReset_rsp (s.withMoves ms), rfl⟩

/-- Settles O44: the fields of `applyReset`, and the whole effect of a late answer. -/
theorem resetAbandonsTheOperation : Obligations.ResetAbandonsTheOperation :=
  ⟨fun _ _ hm => ⟨_, step_reset hm, rfl, rfl, rfl, rfl⟩, fun _ _ _ hm hr => step_lateAnswer hm hr⟩

end Sys2Proof.Machine
end

section
/-! PROOF. The assembler's immediates (spec/30_encoding.md R95): the bound of each line is the check of its well-formedness. -/

namespace Sys2Proof.Machine

theorem assembleLine_of_wellFormed {l : AsmLine} (h : l.wellFormed = true) : assembleLine l = .ok (lineCommand l) :=
  if_pos h

theorem assembleLine_of_not_wellFormed {l : AsmLine} (h : l.wellFormed = false) : assembleLine l = .error .outOfRange :=
  if_neg (Bool.eq_false_iff.mp h)

/-- Settles O47: a line is well formed just when its immediate is below the bound. -/
theorem assemblerRangesAreChecked : Obligations.AssemblerRangesAreChecked := fun _ =>
  ⟨fun h => assembleLine_of_wellFormed (decide_eq_true h),
    fun h => assembleLine_of_not_wellFormed (decide_eq_false (Nat.not_lt.mpr h)),
    fun h => ⟨assembleLine_of_wellFormed (decide_eq_true h), assembleLine_of_wellFormed (decide_eq_true h)⟩,
    fun h => ⟨assembleLine_of_not_wellFormed (decide_eq_false (Nat.not_lt.mpr h)),
      assembleLine_of_not_wellFormed (decide_eq_false (Nat.not_lt.mpr h))⟩,
    assembleLine_of_wellFormed rfl⟩

end Sys2Proof.Machine
end

section
/-! PROOF. What a step leaves as it was (spec/10_state.md R26; 20_memory.md R50, R58, R59, R63): acceptance alone
writes OP and OPERAND, the operations' first steps alone issue requests, and the streams' answers alone change a stream. -/

namespace Sys2Proof.Machine

/-! ### The environment -/

/-- Acceptance touches no stream: of the environment it changes the requests at most. -/
theorem acceptedBy_env (c : Command) (s : State) :
    ∃ requests, (acceptedBy c s).env = { s.env with requests := requests } := by
  rcases acceptedBy_cases c s with ⟨-, heq⟩ | ⟨-, heq⟩ | ⟨-, heq⟩ | ⟨-, heq⟩
  · exact ⟨s.env.requests, by rw [heq, runPrefix_eq]; rfl⟩
  · exact ⟨s.env.requests, by rw [heq]; rfl⟩
  · exact ⟨_, by rw [heq]; rfl⟩
  · exact ⟨_, by rw [heq]; rfl⟩

theorem afterAnalysis_env (b : Byte) (a : Analysis) (s : State) :
    ∃ requests, (afterAnalysis b a s).env = { s.env with requests := requests } := by
  cases a with
  | overflow count => exact ⟨s.env.requests, rfl⟩
  | ok payload extra =>
    simp only [afterAnalysis]
    split_ifs
    · exact ⟨s.env.requests, rfl⟩
    · exact ⟨_, rfl⟩

theorem acceptedBy_op (c : Command) (s : State) : (acceptedBy c s).op = c.op := by
  rcases acceptedBy_cases c s with ⟨hop, heq⟩ | ⟨hop, heq⟩ | ⟨hop, heq⟩ | ⟨hop, heq⟩
  · rw [heq, runPrefix_eq, hop]; rfl
  · rw [heq, hop]; rfl
  · rw [heq, hop]; rfl
  · rw [heq, hop]; rfl

theorem acceptedBy_operand (c : Command) (s : State) : (acceptedBy c s).operand = c.operand := by
  rcases acceptedBy_cases c s with ⟨-, heq⟩ | ⟨-, heq⟩ | ⟨-, heq⟩ | ⟨-, heq⟩
  · rw [heq, runPrefix_eq]; rfl
  · rw [heq]; rfl
  · rw [heq]; rfl
  · rw [heq]; rfl

/-! ### OP and OPERAND -/

/-- Settles O34: of the rows of R25 only acceptance writes them, and of the other moves only a reset. -/
theorem opAndOperandChangeAtAcceptanceOnly : Obligations.OpAndOperandChangeAtAcceptanceOnly := by
  intro s t hstep
  cases step_cases hstep with
  | due ms _ _ hdue =>
    cases hdue with
    | accepted c cs hq hc =>
      obtain ⟨_, henv⟩ := acceptedBy_env c { s.withMoves ms with env := { (s.withMoves ms).env with cmds := cs } }
      exact .inr (.inl ⟨hq, c, cs, hc, acceptedBy_op c _, acceptedBy_operand c _, by rw [henv]⟩)
    | prefixByte b rest =>
      obtain ⟨-, hop, hoperand⟩ :=
        afterAnalysis_keepsCommands b (analyze b) (setBuf0 b (setSource rest (s.withMoves ms)))
      exact .inl ⟨hop, hoperand⟩
    | idle | prefixBlocked | readFailed | extraBlocked | extraBytes | writeBlocked | written | writeFailed | taken =>
      exact .inl ⟨rfl, rfl⟩
  | reset ms hm => exact .inr (.inr ⟨ms, hm⟩)
  | stall | offer | lateAnswer | connectSource | connectSink => exact .inl ⟨rfl, rfl⟩

/-! ### Requests -/

/-- From `s` to `t` nothing was requested, or the one request that is outstanding in `t`, when nothing but an answered
`ReadExact(1)` was outstanding in `s`. -/
def State.RequestsOne (s t : State) : Prop :=
  t.env.requests = s.env.requests ∨
    ∃ r, t.env.requests = s.env.requests ++ [r] ∧ t.outstanding = some r ∧
      (s.outstanding = none ∨ s.outstanding = some (.readExact 1))

theorem outstanding_idle {s : State} (hq : s.seq = .idle) : s.outstanding = none := by simp only [State.outstanding, hq]

theorem outstanding_awaitPrefix {s : State} (hq : s.seq = .awaitPrefix) : s.outstanding = some (.readExact 1) := by
  simp only [State.outstanding, hq]

theorem outstanding_runEncode (s : State) : (runEncode s).outstanding = some (.writeAll (encodeBytes s.operand)) := by
  rw [← runEncode_bufBytes]
  rfl

theorem acceptedBy_requestsOne (c : Command) {s : State} (hq : s.seq = .idle) : s.RequestsOne (acceptedBy c s) := by
  rcases acceptedBy_cases c s with ⟨-, heq⟩ | ⟨-, heq⟩ | ⟨-, heq⟩ | ⟨-, heq⟩
  · exact .inl (by rw [heq, runPrefix_eq]; rfl)
  · exact .inl (by rw [heq]; rfl)
  · refine .inr ⟨.writeAll (encodeBytes c.operand), ?_, ?_, .inl (outstanding_idle hq)⟩
    · rw [heq, runEncode_eq]; rfl
    · rw [heq, outstanding_runEncode]; rfl
  · exact .inr ⟨.readExact 1, by rw [heq]; rfl, by rw [heq]; rfl, .inl (outstanding_idle hq)⟩

theorem afterAnalysis_requestsOne (b : Byte) (a : Analysis) {s : State} (hq : s.seq = .awaitPrefix) :
    s.RequestsOne (afterAnalysis b a (setBuf0 b s)) := by
  cases a with
  | overflow count => exact .inl rfl
  | ok payload extra =>
    simp only [afterAnalysis]
    split_ifs
    · exact .inl rfl
    · exact .inr ⟨_, rfl, rfl, .inr (outstanding_awaitPrefix hq)⟩

theorem DueCase.requestsOne {s t : State} (h : DueCase s t) : s.RequestsOne t := by
  cases h with
  | accepted c cs hq => exact acceptedBy_requestsOne c (s := { s with env := { s.env with cmds := cs } }) hq
  | prefixByte b rest hq => exact afterAnalysis_requestsOne b (analyze b) (s := setSource rest s) hq
  | idle | prefixBlocked | readFailed | extraBlocked | extraBytes | writeBlocked | written | writeFailed | taken =>
    exact .inl rfl

/-- Settles O37: of the moves only the due agent's issues a request. -/
theorem atMostOneRequestIsOutstanding : Obligations.AtMostOneRequestIsOutstanding := by
  intro s t hstep
  cases step_cases hstep with
  | due ms _ _ hdue => exact hdue.requestsOne
  | stall | offer | reset | lateAnswer | connectSource | connectSink => exact .inl rfl

/-! ### The streams -/

theorem reading_of_seq {s : State} (hq : s.seq = .awaitPrefix ∨ s.seq = .awaitExtra) : s.reading = true := by
  rcases hq with hq | hq <;> simp [State.reading, hq]

theorem writing_of_seq {s : State} (hq : s.seq = .awaitWrite) : s.writing = true := by simp [State.writing, hq]

theorem seq_of_reading {s : State} (h : s.reading = true) : s.seq = .awaitPrefix ∨ s.seq = .awaitExtra := by
  simpa [State.reading] using h

theorem seq_of_writing {s : State} (h : s.writing = true) : s.seq = .awaitWrite := by
  simpa [State.writing] using h

theorem DueCase.source {s t : State} (h : DueCase s t) : t.env.source = s.env.source ∨ s.reading = true := by
  cases h with
  | accepted c cs =>
    obtain ⟨_, henv⟩ := acceptedBy_env c { s with env := { s.env with cmds := cs } }
    exact .inl (by rw [henv])
  | prefixByte _ _ hq => exact .inr (reading_of_seq (.inl hq))
  | readFailed _ hq => exact .inr (reading_of_seq hq)
  | extraBytes _ _ hq => exact .inr (reading_of_seq (.inr hq))
  | idle | prefixBlocked | extraBlocked | writeBlocked | written | writeFailed | taken => exact .inl rfl

theorem DueCase.sink {s t : State} (h : DueCase s t) : t.env.sink = s.env.sink ∨ s.writing = true := by
  cases h with
  | accepted c cs =>
    obtain ⟨_, henv⟩ := acceptedBy_env c { s with env := { s.env with cmds := cs } }
    exact .inl (by rw [henv])
  | prefixByte b rest =>
    obtain ⟨_, henv⟩ := afterAnalysis_env b (analyze b) (setBuf0 b (setSource rest s))
    exact .inl (by rw [henv]; rfl)
  | written _ hq | writeFailed _ _ hq => exact .inr (writing_of_seq hq)
  | idle | prefixBlocked | readFailed | extraBlocked | extraBytes | writeBlocked | taken => exact .inl rfl

/-- What can change the source: a read that is outstanding, or the environment. -/
theorem step_source {s t : State} (hstep : step s = .next t) :
    t.env.source = s.env.source ∨ s.reading = true ∨ ∃ items ms, s.env.moves = .connectSource items :: ms := by
  cases step_cases hstep with
  | due ms _ _ hdue => exact hdue.source.imp_right .inl
  | reset ms =>
    cases hr : s.reading with
    | true => exact .inr (.inl rfl)
    | false =>
      have hr' : (s.withMoves ms).reading = false := hr
      exact .inl (by simp [abandonRequest, hr'])
  | connectSource items ms hm => exact .inr (.inr ⟨items, ms, hm⟩)
  | stall | offer | lateAnswer | connectSink => exact .inl rfl

/-- What can change the sink: a write that is outstanding, or the environment. -/
theorem step_sink {s t : State} (hstep : step s = .next t) :
    t.env.sink = s.env.sink ∨ s.writing = true ∨ ∃ contents answers ms, s.env.moves = .connectSink contents answers :: ms := by
  cases step_cases hstep with
  | due ms _ _ hdue => exact hdue.sink.imp_right .inl
  | reset ms =>
    cases hw : s.writing with
    | true => exact .inr (.inl rfl)
    | false =>
      have hw' : (s.withMoves ms).writing = false := hw
      exact .inl (by simp [abandonRequest, hw'])
  | connectSink contents answers ms hm => exact .inr (.inr ⟨contents, answers, ms, hm⟩)
  | stall | offer | lateAnswer | connectSource => exact .inl rfl

theorem op_of_reading {s : State} (h : s.phaseHolds) (hr : s.reading = true) : s.op = 0b11 := by
  rcases seq_of_reading hr with hq | hq <;> rw [State.phaseHolds, hq] at h
  · exact h
  · exact h.1

theorem op_of_writing {s : State} (h : s.phaseHolds) (hw : s.writing = true) : s.op = 0b10 := by
  rw [State.phaseHolds, seq_of_writing hw] at h
  exact h.1

/-- Settles O38: a read is outstanding only for a DECODE and a write only for an ENCODE, by the phase clause of Inv. -/
theorem onlyDecodeReadsAndOnlyEncodeWrites : Obligations.OnlyDecodeReadsAndOnlyEncodeWrites := by
  intro s t hs hstep
  refine ⟨fun hne => ?_, fun hne => ?_⟩
  · exact ((step_source hstep).resolve_left hne).imp_left fun hr => ⟨hr, op_of_reading hs.phase hr⟩
  · exact ((step_sink hstep).resolve_left hne).imp_left fun hw => ⟨hw, op_of_writing hs.phase hw⟩

/-! ### Waiting -/

/-- A machine whose due agent has nothing to do yet: whatever the move, but for a reset, only the environment changes, and
of it neither the requests nor the stream that is waited for. -/
theorem step_of_blocked {s t : State} (hblocked : ∀ ms, s.due ms → step s = .next (s.withMoves ms))
    (hstep : step s = .next t) (hno : ∀ ms, s.env.moves ≠ .reset :: ms) :
    ∃ env, t = { s with env := env } ∧ env.requests = s.env.requests ∧
      (s.reading = true → env.source = s.env.source) ∧
      (s.writing = true → env.sink = s.env.sink ∧ env.sinkAnswers = s.env.sinkAnswers) := by
  cases step_cases hstep with
  | due ms _ hd =>
    rw [hblocked ms hd] at hstep
    injection hstep with heq
    exact ⟨_, heq.symm, rfl, fun _ => rfl, fun _ => ⟨rfl, rfl⟩⟩
  | reset ms hm => exact absurd hm (hno ms)
  | stall | offer | lateAnswer => exact ⟨_, rfl, rfl, fun _ => rfl, fun _ => ⟨rfl, rfl⟩⟩
  | connectSource _ _ _ hidle => exact ⟨_, rfl, rfl, fun hr => absurd (hidle.symm.trans hr) nofun, fun _ => ⟨rfl, rfl⟩⟩
  | connectSink _ _ _ _ hidle => exact ⟨_, rfl, rfl, fun _ => rfl, fun hw => absurd (hidle.symm.trans hw) nofun⟩

/-- A source with too few bytes and no failure gives no answer (R58). -/
theorem dueEvent_readBlocked {s : State} {bytes : List Byte} (hs : s.env.source = delivering bytes)
    (hphase : s.seq = .awaitPrefix ∧ bytes = [] ∨
      s.seq = .awaitExtra ∧ bytes.length < s.extra.toNat ∧ s.extra.toNat ≤ 8) :
    (dueEvent s).result = .next s := by
  rcases hphase with ⟨hq, rfl⟩ | ⟨hq, hl, h8⟩
  · exact dueEvent_prefixBlocked hq hs
  · have hread : readExact s.extra.toNat s.env.source = .blocked := by
      rw [hs]
      exact readExact_short _ bytes hl
    rw [dueEvent_awaitExtra hq, awaitExtra, if_pos ⟨Nat.one_le_of_lt hl, h8⟩, hread]

theorem awaitWrite_blocked {s : State} (h1 : 1 ≤ s.len.toNat) (h9 : s.len.toNat ≤ 9) (ha : s.env.sinkAnswers = []) :
    awaitWrite s = .next s := by
  simp only [awaitWrite, Config.maxLen, if_pos (And.intro h1 h9), ha]

/-- Settles O36: the read is blocked, so `step_of_blocked` says what every move can change. -/
theorem anUnansweredReadBlocks : Obligations.AnUnansweredReadBlocks := by
  intro s bytes hs hphase
  have hblocked (ms : List Move) (hd : s.due ms) : step s = .next (s.withMoves ms) :=
    (step_due hd).trans (dueEvent_readBlocked (s := s.withMoves ms) hs hphase)
  have hreading : s.reading = true := reading_of_seq (hphase.imp And.left And.left)
  refine ⟨hblocked, fun ms hm => step_move hm, fun t hstep hno => ?_⟩
  obtain ⟨env, rfl, hrequests, hsource, -⟩ := step_of_blocked hblocked hstep hno
  exact ⟨rfl, rfl, rfl, rfl, rfl, rfl, rfl, rfl, hrequests, hsource hreading⟩

/-- Settles O53: the write is blocked, so `step_of_blocked` says what every move can change. -/
theorem anUnansweredWriteBlocks : Obligations.AnUnansweredWriteBlocks := by
  intro s hq h1 h9 ha
  have hblocked (ms : List Move) (hd : s.due ms) : step s = .next (s.withMoves ms) := by
    rw [step_due hd, dueEvent_awaitWrite (s := s.withMoves ms) hq]
    exact awaitWrite_blocked (s := s.withMoves ms) h1 h9 ha
  refine ⟨hblocked, fun ms hm => step_move hm, fun t hstep hno => ?_⟩
  obtain ⟨env, rfl, hrequests, -, hsink⟩ := step_of_blocked hblocked hstep hno
  obtain ⟨hcontents, hanswers⟩ := hsink (writing_of_seq hq)
  exact ⟨rfl, rfl, rfl, rfl, rfl, rfl, rfl, rfl, hrequests, hcontents, hanswers.trans ha⟩

end Sys2Proof.Machine
end

section
/-! PROOF. Isolation (spec/10_state.md R33, R35): one step keeps states that agree in agreement, and the steps of different
machines of a system do not meet. -/

namespace Sys2Proof.Machine

/-! ### Agreement -/

/-- Settles O40: the cases of `ResultAgree` for the two steps. -/
theorem stepsAgreeOnStatesThatAgree : Obligations.StepsAgreeOnStatesThatAgree := by
  intro s s' h
  have hagree := step_agree h
  generalize step s = r, step s' = r' at hagree ⊢
  cases hagree with
  | next ht => exact .inl ⟨_, _, rfl, rfl, ht⟩
  | fault r => exact .inr (.inl ⟨r, rfl, rfl⟩)
  | refused r => exact .inr (.inr ⟨r, rfl, rfl⟩)

/-! ### Several instances -/

/-- What a step of one machine does to the list of all: it sets entry `k`, and what it sets there depends on entry `k`
alone. -/
theorem stepAt_eq_set {k : Nat} {sys sys' : System} (h : System.stepAt k sys = .next sys') :
    ∃ t, sys' = sys.set k t ∧
      ∀ other : System, other[k]? = sys[k]? → System.stepAt k other = .next (other.set k t) := by
  cases hk : sys[k]? with
  | none =>
    have hkeep {other : System} (ho : other[k]? = none) : other.set k State.reset = other :=
      List.set_eq_of_length_le (List.getElem?_eq_none_iff.mp ho)
    simp only [System.stepAt, hk] at h
    injection h with h
    exact ⟨State.reset, by rw [hkeep hk, h], fun other ho => by simp only [System.stepAt, ho, hkeep ho]⟩
  | some s =>
    cases hs : step s with
    | next t =>
      simp only [System.stepAt, hk, hs] at h
      injection h with h
      exact ⟨t, h.symm, fun other ho => by simp only [System.stepAt, ho, hs]⟩
    | fault r | refused r => simp only [System.stepAt, hk, hs] at h; cases h

/-- Settles O51: entries set at different places do not meet. -/
theorem instancesAreIndependent : Obligations.InstancesAreIndependent := by
  refine ⟨fun sys sys' k h j hjk => ?_, fun sys a b j k hjk ha hb => ?_⟩
  · obtain ⟨t, rfl, -⟩ := stepAt_eq_set h
    exact List.getElem?_set_ne hjk.symm
  · obtain ⟨t, rfl, hj⟩ := stepAt_eq_set ha
    obtain ⟨u, rfl, hk⟩ := stepAt_eq_set hb
    refine ⟨(sys.set j t).set k u, hk _ (List.getElem?_set_ne hjk), ?_⟩
    rw [List.set_comm _ _ hjk]
    exact hj _ (List.getElem?_set_ne hjk.symm)

end Sys2Proof.Machine
end

section
/-! PROOF. The invariant (spec/10_state.md R23 to R29, 60_exceptions.md R213): each operation leaves the latches as the next
phase needs them, no step makes an OVERFLOW, and the request a step issues is the one outstanding after it, whose contract
the phase keeps. -/

namespace Sys2Proof.Machine

/-! ### Responses -/

theorem ok_notOverflow (value : U64) (extra : Option (BitVec 4)) : (Response.ok value extra).notOverflow := nofun

theorem ioError_notOverflow (e : IoErr) : (Response.ioError e).notOverflow := nofun

/-- Every response in `t` stood in `s` already, or is no OVERFLOW. -/
def State.NoNewOverflow (s t : State) : Prop :=
  ∀ r, t.rsp = some r → s.rsp = some r ∨ r.notOverflow

theorem noNewOverflow_of_kept {s t : State} (h : t.rsp = s.rsp) : s.NoNewOverflow t := fun _ hr => .inl (h ▸ hr)

theorem noNewOverflow_of_some {s t : State} {r : Response} (h : t.rsp = some r) (hr : r.notOverflow) :
    s.NoNewOverflow t := fun _ hr' => .inr (Option.some.inj (h.symm.trans hr') ▸ hr)

theorem acceptedBy_noNewOverflow (c : Command) (s : State) : s.NoNewOverflow (acceptedBy c s) := by
  rcases acceptedBy_cases c s with ⟨-, heq⟩ | ⟨-, heq⟩ | ⟨-, heq⟩ | ⟨-, heq⟩
  · exact noNewOverflow_of_some (by rw [heq, runPrefix_eq]; rfl) (ok_notOverflow _ _)
  · exact noNewOverflow_of_some (by rw [heq]; rfl) (ok_notOverflow _ _)
  · exact noNewOverflow_of_kept (by rw [heq]; rfl)
  · exact noNewOverflow_of_kept (by rw [heq]; rfl)

/-- The guard of R124 does not fire, so the analysis of a byte is no OVERFLOW. -/
theorem afterAnalysis_noNewOverflow (b : Byte) (s : State) : s.NoNewOverflow (afterAnalysis b (analyze b) s) := by
  simp only [analyze_eq, afterAnalysis]
  split_ifs
  · exact noNewOverflow_of_some rfl (ok_notOverflow _ _)
  · exact noNewOverflow_of_kept rfl

theorem DueCase.noNewOverflow {s t : State} (h : DueCase s t) : s.NoNewOverflow t := by
  cases h with
  | accepted c cs => exact acceptedBy_noNewOverflow c { s with env := { s.env with cmds := cs } }
  | prefixByte b rest => exact afterAnalysis_noNewOverflow b (setBuf0 b (setSource rest s))
  | extraBytes | written => exact noNewOverflow_of_some rfl (ok_notOverflow _ _)
  | readFailed e | writeFailed e => exact noNewOverflow_of_some rfl (ioError_notOverflow e)
  | idle | prefixBlocked | extraBlocked | writeBlocked | taken => exact noNewOverflow_of_kept rfl

theorem step_noNewOverflow {s t : State} (hstep : step s = .next t) : s.NoNewOverflow t := by
  cases step_cases hstep with
  | due ms _ _ hdue => exact hdue.noNewOverflow
  | reset => exact nofun
  | stall | offer | lateAnswer | connectSource | connectSink => exact noNewOverflow_of_kept rfl

/-- Settles O8: a response that was not in RSP before is no OVERFLOW. -/
theorem noStepProducesOverflow : Obligations.NoStepProducesOverflow := fun _ _ count hstep hr =>
  (step_noNewOverflow hstep _ hr).resolve_right fun hno => hno count rfl

/-- The caller takes what RSP presents and nothing else. -/
def State.TakesRsp (s t : State) : Prop :=
  ∀ r ∈ t.env.taken, r ∈ s.env.taken ∨ s.rsp = some r

theorem takesRsp_of_kept {s t : State} (h : t.env.taken = s.env.taken) : s.TakesRsp t := fun _ hr => .inl (h ▸ hr)

theorem DueCase.takesRsp {s t : State} (h : DueCase s t) : s.TakesRsp t := by
  cases h with
  | accepted c cs =>
    obtain ⟨_, henv⟩ := acceptedBy_env c { s with env := { s.env with cmds := cs } }
    exact takesRsp_of_kept (by rw [henv])
  | prefixByte b rest =>
    obtain ⟨_, henv⟩ := afterAnalysis_env b (analyze b) (setBuf0 b (setSource rest s))
    exact takesRsp_of_kept (by rw [henv]; rfl)
  | taken r _ hr =>
    intro r' hr'
    rcases List.mem_append.mp hr' with hold | hnew
    · exact .inl hold
    · exact .inr (List.mem_singleton.mp hnew ▸ hr)
  | idle | prefixBlocked | readFailed | extraBlocked | extraBytes | writeBlocked | written | writeFailed =>
    exact takesRsp_of_kept rfl

theorem step_takesRsp {s t : State} (hstep : step s = .next t) : s.TakesRsp t := by
  cases step_cases hstep with
  | due ms _ _ hdue => exact hdue.takesRsp
  | stall | offer | reset | lateAnswer | connectSource | connectSink => exact takesRsp_of_kept rfl

/-! ### The ranges of R23 -/

theorem fillBuf_latchesInRange {bytes : List Byte} {s : State} (h : s.latchesInRange) (hl : bytes.length ≤ 9) :
    (fillBuf bytes s).latchesInRange := by
  obtain ⟨-, hextra, hpay⟩ := h
  exact ⟨(toNat_ofNat_length _ hl).trans_le hl, hextra, hpay⟩

theorem setAnalysis_latchesInRange {payload : U64} {extra : BitVec 4} {s : State} (h : s.latchesInRange)
    (hp : payload.toNat ≤ 127) (he : extra.toNat ≤ 8) : (setAnalysis payload extra s).latchesInRange := by
  obtain ⟨hlen, -, -⟩ := h
  exact ⟨hlen, he, hp⟩

/-- The free values of the latches that hold no value lie in their ranges. -/
theorem dropLatches_latchesInRange (s : State) : (dropLatches s).latchesInRange := by
  have hlen := (Config.freeLen s.freeIx).isLt
  have hextra := (Config.freeExtra s.freeIx).isLt
  have hpay := (Config.freePay s.freeIx).isLt
  refine ⟨?_, ?_, ?_⟩
  · rw [dropLatches_len, toNat_ofNat_length _ (by omega)]
    omega
  · rw [dropLatches_extra, toNat_ofNat_length _ (by omega)]
    omega
  · rw [dropLatches_pay, BitVec.toNat_setWidth]
    omega

/-! ### The latches in each phase -/

/-- What Inv asks of the latches. -/
structure State.LatchesFit (s : State) : Prop where
  inRange : s.latchesInRange
  phase : s.phaseHolds
  response : ∀ r, s.seq = .done → s.rsp = some r → r.allowedFor s.op

theorem State.Inv.latchesFit {s : State} (h : s.Inv) : s.LatchesFit := ⟨h.inRange, h.phase, h.response⟩

theorem latchesFit_idle {s : State} (hq : s.seq = .idle) (hr : s.latchesInRange) : s.LatchesFit where
  inRange := hr
  phase := by rw [State.phaseHolds, hq]; trivial
  response _ hd := absurd (hq.symm.trans hd) nofun

theorem mapEnv_latchesFit {s : State} (h : s.LatchesFit) (env : Env) : ({ s with env := env } : State).LatchesFit :=
  ⟨h.inRange, h.phase, h.response⟩

theorem respond_latchesFit {r : Response} {s : State} (hr : s.latchesInRange) (ha : r.allowedFor s.op) :
    (respond r s).LatchesFit where
  inRange := hr
  phase := rfl
  response _ _ hr' := Option.some.inj hr' ▸ ha

theorem raise_io_latchesFit (e : IoErr) {s : State} (hop : s.op = 0b10 ∨ s.op = 0b11) : (raise (.io e) s).LatchesFit :=
  respond_latchesFit (dropLatches_latchesInRange s) hop

theorem allowedFor_prefix {value : U64} {extra : BitVec 4} (hv : value.toNat ≤ 127) (he : extra.toNat ≤ 8) :
    (Response.ok value (some extra)).allowedFor 0b00 :=
  ⟨fun _ => ⟨hv, extra, rfl, he⟩, nofun, nofun, nofun⟩

/-- SIZE and ENCODE both answer a length. -/
theorem allowedFor_length {op : BitVec 2} {value : U64} (hop : op = 0b01 ∨ op = 0b10) (h1 : 1 ≤ value.toNat)
    (h9 : value.toNat ≤ 9) : (Response.ok value none).allowedFor op := by
  refine ⟨?_, fun _ => ⟨h1, h9, rfl⟩, fun _ => ⟨h1, h9, rfl⟩, fun _ => rfl⟩
  rintro rfl
  rcases hop with hop | hop <;> cases hop

theorem allowedFor_decode (value : U64) : (Response.ok value none).allowedFor 0b11 :=
  ⟨nofun, nofun, nofun, fun _ => rfl⟩

/-! ### Each operation's steps -/

theorem runPrefix_latchesFit {s : State} (hop : s.op = 0b00) (hr : s.latchesInRange) : (runPrefix s).LatchesFit := by
  obtain ⟨p, e, hok, hp, he⟩ := analyze_cases (prefixOperand s.operand)
  simp only [runPrefix, hok]
  exact respond_latchesFit hr (hop ▸ allowedFor_prefix hp he)

theorem runSize_latchesFit {s : State} (hop : s.op = 0b01) (hr : s.latchesInRange) : (runSize s).LatchesFit := by
  have hvalue := toNat_ofNat_value (size_le s.operand)
  refine respond_latchesFit hr (allowedFor_length (.inl hop) ?_ ?_) <;> rw [hvalue]
  · exact size_pos _
  · exact size_le _

theorem runEncode_latchesFit {s : State} (hop : s.op = 0b10) (hr : s.latchesInRange) : (runEncode s).LatchesFit where
  inRange := by
    have hlen : (encodeBytes s.operand).length ≤ 9 := (encodeBytes_length _).trans_le (size_le _)
    have hfill := fillBuf_latchesInRange hr hlen
    rw [runEncode_eq]
    exact hfill
  phase := ⟨hop, runEncode_bufBytes s, (size_pos _).trans_eq (runEncode_len s).symm⟩
  response := nofun

theorem runDecode_latchesFit {s : State} (hop : s.op = 0b11) (hr : s.latchesInRange) : (runDecode s).LatchesFit :=
  ⟨hr, hop, nofun⟩

theorem acceptedBy_latchesFit (c : Command) {s : State} (hr : s.latchesInRange) : (acceptedBy c s).LatchesFit := by
  rcases acceptedBy_cases c s with ⟨-, heq⟩ | ⟨-, heq⟩ | ⟨-, heq⟩ | ⟨-, heq⟩ <;> rw [heq]
  · exact runPrefix_latchesFit rfl hr
  · exact runSize_latchesFit rfl hr
  · exact runEncode_latchesFit rfl hr
  · exact runDecode_latchesFit rfl hr

/-- After the first byte of a DECODE: the end, or AWAIT_EXTRA with the byte in BUF[0] and its analysis in PAY and EXTRA. -/
theorem afterAnalysis_latchesFit (b : Byte) {s : State} (hop : s.op = 0b11) (hr : s.latchesInRange) :
    (afterAnalysis b (analyze b) (setBuf0 b s)).LatchesFit := by
  obtain ⟨p, e, hok, hp, he⟩ := analyze_cases b
  have hset : (setAnalysis p e (setBuf0 b s)).latchesInRange := setAnalysis_latchesInRange hr hp he
  simp only [hok, afterAnalysis]
  split_ifs with h0
  · exact respond_latchesFit (fillBuf_latchesInRange hset (by simp)) (hop ▸ allowedFor_decode p)
  · have hpos : 1 ≤ e.toNat := Nat.one_le_iff_ne_zero.mpr fun h => h0 (BitVec.eq_of_toNat_eq h)
    exact ⟨hset, ⟨hop, hpos, by simpa using hok⟩, nofun⟩

theorem takeExtra_latchesFit {bytes : List Byte} {s : State} (hop : s.op = 0b11) (hr : s.latchesInRange)
    (hl : bytes.length ≤ 8) : (takeExtra bytes s).LatchesFit := by
  rw [takeExtra_eq bytes s hl]
  exact respond_latchesFit (fillBuf_latchesInRange hr (Nat.succ_le_succ hl)) (hop ▸ allowedFor_decode _)

/-- The rows of R25 lead from fitting latches to fitting latches. -/
theorem DueCase.latchesFit {s t : State} (h : DueCase s t) (hs : s.LatchesFit) : t.LatchesFit := by
  cases h with
  | idle | prefixBlocked | extraBlocked | writeBlocked => exact hs
  | accepted c => exact acceptedBy_latchesFit c hs.inRange
  | prefixByte b _ hq => exact afterAnalysis_latchesFit b (op_of_reading hs.phase (reading_of_seq (.inl hq))) hs.inRange
  | readFailed e hq => exact raise_io_latchesFit e (.inr (op_of_reading hs.phase (reading_of_seq hq)))
  | extraBytes bytes rest hq _ h8 hl =>
    exact takeExtra_latchesFit (op_of_reading hs.phase (reading_of_seq (.inr hq))) hs.inRange (hl.trans_le h8)
  | written answers hq h1 h9 =>
    have hvalue : (s.len.setWidth 64).toNat = s.len.toNat := by
      rw [BitVec.toNat_setWidth, Nat.mod_eq_of_lt (by omega)]
    exact respond_latchesFit hs.inRange (allowedFor_length (.inr (op_of_writing hs.phase (writing_of_seq hq)))
      (hvalue.symm ▸ h1) (hvalue.symm ▸ h9))
  | writeFailed e _ hq => exact raise_io_latchesFit e (.inl (op_of_writing hs.phase (writing_of_seq hq)))
  | taken => exact latchesFit_idle rfl hs.inRange

theorem reset_latchesInRange : State.reset.latchesInRange := by
  rw [State.latchesInRange]
  decide

theorem step_latchesFit {s t : State} (hstep : step s = .next t) (hs : s.LatchesFit) : t.LatchesFit := by
  cases step_cases hstep with
  | due ms _ _ hdue => exact hdue.latchesFit (mapEnv_latchesFit hs _)
  | reset => exact latchesFit_idle rfl reset_latchesInRange
  | stall | offer | lateAnswer | connectSource | connectSink => exact mapEnv_latchesFit hs _

/-! ### Requests -/

/-- The request outstanding in a phase keeps its contract, by what the phase says of the latches. -/
theorem outstanding_inContract {s : State} (hs : s.LatchesFit) {r : Request} (h : s.outstanding = some r) :
    r.inContract := by
  have hphase := hs.phase
  obtain ⟨-, h8, -⟩ := hs.inRange
  cases hq : s.seq with
  | idle | done => simp [State.outstanding, hq] at h
  | awaitPrefix =>
    obtain rfl : Request.readExact 1 = r := by simpa [State.outstanding, hq] using h
    exact ⟨by decide, by decide⟩
  | awaitExtra =>
    obtain rfl : Request.readExact s.extra.toNat = r := by simpa [State.outstanding, hq] using h
    rw [State.phaseHolds, hq] at hphase
    obtain ⟨-, h1, -⟩ := hphase
    exact ⟨h1, h8⟩
  | awaitWrite =>
    obtain rfl : Request.writeAll s.bufBytes = r := by simpa [State.outstanding, hq] using h
    rw [State.phaseHolds, hq] at hphase
    obtain ⟨-, hbytes, -⟩ := hphase
    exact ⟨s.operand, hbytes⟩

/-! ### The invariant -/

/-- Settles O49: the latches by `step_latchesFit`; a response taken or presented is one that was, or no OVERFLOW; and a new
request is the outstanding one. -/
theorem everyStepKeepsTheInvariant : Obligations.EveryStepKeepsTheInvariant := by
  intro s t hs hstep
  have hfit := step_latchesFit hstep hs.latchesFit
  refine ⟨hfit.inRange, hfit.phase, hfit.response, fun r hr => ?_, fun r hr => ?_, fun q hq => ?_⟩
  · exact (step_noNewOverflow hstep r hr).elim (hs.latest r) id
  · exact (step_takesRsp hstep r hr).elim (hs.taken r) (hs.latest r)
  · rcases atMostOneRequestIsOutstanding s t hstep with hkept | ⟨r, hnew, hout, -⟩
    · exact hs.requests q (hkept ▸ hq)
    · rw [hnew, List.mem_append, List.mem_singleton] at hq
      exact hq.elim (hs.requests q) fun heq => heq ▸ outstanding_inContract hfit hout

/-- Settles O48: IDLE asks for the ranges alone, and there is no traffic yet. -/
theorem invariantHoldsAtReset : Obligations.InvariantHoldsAtReset := by
  have hany (env : Env) (ht : env.taken = []) (hr : env.requests = []) :
      ({ State.reset with env := env } : State).Inv := by
    obtain ⟨hrange, hphase, hresponse⟩ :=
      latchesFit_idle (s := { State.reset with env := env }) rfl reset_latchesInRange
    exact ⟨hrange, hphase, hresponse, nofun, by simp [ht], by simp [hr]⟩
  exact ⟨hany Env.disconnected rfl rfl, hany⟩

/-! ### Progress -/

theorem awaitExtra_next {s : State} (h1 : 1 ≤ s.extra.toNat) (h8 : s.extra.toNat ≤ 8) :
    ∃ t, awaitExtra s = .next t := by
  rw [awaitExtra, if_pos ⟨h1, h8⟩]
  cases readExact s.extra.toNat s.env.source with
  | blocked | ok | err => exact ⟨_, rfl⟩

theorem awaitWrite_next {s : State} (h1 : 1 ≤ s.len.toNat) (h9 : s.len.toNat ≤ 9) : ∃ t, awaitWrite s = .next t := by
  match ha : s.env.sinkAnswers with
  | [] => exact ⟨_, awaitWrite_blocked h1 h9 ha⟩
  | .ok :: _ => exact ⟨_, awaitWrite_ok h1 h9 ha⟩
  | .err _ :: _ => exact ⟨_, awaitWrite_err h1 h9 ha⟩

/-- With fitting latches the due agent's move always has a next state. -/
theorem dueEvent_next {s : State} (hs : s.LatchesFit) : ∃ t, (dueEvent s).result = .next t := by
  have hphase := hs.phase
  obtain ⟨h9, h8, -⟩ := hs.inRange
  cases hq : s.seq <;> rw [State.phaseHolds, hq] at hphase
  case idle =>
    cases hc : s.env.cmds with
    | nil => exact ⟨_, dueEvent_noCommand hq hc⟩
    | cons c cs => exact ⟨_, dueEvent_command hq hc⟩
  case awaitPrefix =>
    match hsrc : s.env.source with
    | [] => exact ⟨_, dueEvent_prefixBlocked hq hsrc⟩
    | .fail e :: _ => exact ⟨_, dueEvent_prefixError hq hsrc⟩
    | .byte b :: rest => exact ⟨_, (dueEvent_prefixByte hq hsrc).trans (takePrefix_eq (s := setSource rest s) b hq)⟩
  case awaitExtra =>
    obtain ⟨-, h1, -⟩ := hphase
    rw [dueEvent_awaitExtra hq]
    exact awaitExtra_next h1 h8
  case awaitWrite =>
    obtain ⟨-, -, h1⟩ := hphase
    rw [dueEvent_awaitWrite hq]
    exact awaitWrite_next h1 h9
  case done =>
    obtain ⟨r, hr⟩ := Option.isSome_iff_exists.mp hphase
    exact ⟨_, by rw [dueEvent_done hq, takeResponse, hr]⟩

/-- The environment's moves may be refused, but raise no fault. -/
theorem moveEvent_ne_fault {s : State} (hs : s.LatchesFit) (m : Move) (r : Fault) :
    (moveEvent m s).result ≠ .fault r := by
  cases m with
  | go =>
    obtain ⟨t, ht⟩ := dueEvent_next hs
    rw [moveEvent, ht]
    nofun
  | stall | offer | reset => nofun
  | lateAnswer q =>
    simp only [moveEvent, Event.result, lateAnswer]
    split_ifs <;> nofun
  | connectSource items =>
    simp only [moveEvent, Event.result, connectSource]
    split_ifs <;> nofun
  | connectSink contents answers =>
    simp only [moveEvent, Event.result, connectSink]
    split_ifs <;> nofun

/-- Settles O50: a step is the next move's event, and no move at all is the due agent's. -/
theorem noFaultInTheInvariant : Obligations.NoFaultInTheInvariant := by
  intro s r hs
  cases hm : s.env.moves with
  | nil =>
    rw [step_due (.inr ⟨hm, rfl⟩)]
    exact moveEvent_ne_fault (mapEnv_latchesFit hs.latchesFit _) .go r
  | cons m ms =>
    rw [step_move hm]
    exact moveEvent_ne_fault (mapEnv_latchesFit hs.latchesFit _) m r

end Sys2Proof.Machine
end
